-- ==== Sys2Proof/Word.lean ====
section
/-! DEFINITION. The one word of the machine: a byte (00_scope.md R5, `XLEN` = 8). `a + b`, `a - b` and `a * b` on bytes
are the spec's `+8`, `-8` and `*8`: the result modulo 256 (00_scope.md section 4). -/

namespace Sys2Proof

/-- A byte: a register value, a memory byte, an operand byte, an opcode (10_state.md R8, 20_memory.md R31). -/
abbrev Byte := BitVec 8

/-- A memory address, 0 to 255 (00_scope.md R5, `ADDR_WIDTH` = 8): the whole address space, with no hole. -/
abbrev Addr := BitVec 8

end Sys2Proof
end

