-- ==== Sys2Proof/Syntax.lean ====
section
/-! DEFINITION. The 13 instructions, one constructor for each row of spec/opcode_table.json (30_encoding.md R51). An
operand is the RAW operand byte: whether a register operand is 0 to 7 is the step's register check (40_cycle.md R63), made
when the instruction is executed, so that a byte of 8 or more is an instruction that faults (log 8). -/

namespace Sys2Proof

/-- An instruction with its operand bytes, in the order they follow the opcode (30_encoding.md R46, R50). -/
inductive Instr where
  /-- HLT: halt (44_control.md R93). -/
  | hlt
  /-- LDI r1, imm8: load immediate (41_load_output.md R72). -/
  | ldi (r1 imm8 : Byte)
  /-- PRN r1: print register (41_load_output.md R73). -/
  | prn (r1 : Byte)
  /-- MUL r1, r2: multiply registers (42_alu.md R80). -/
  | mul (r1 r2 : Byte)
  /-- ADD r1, r2: add registers (42_alu.md R79). -/
  | add (r1 r2 : Byte)
  /-- CMP r1, r2: compare registers (42_alu.md R81; R82 under the alternative `CMP_MODE`). -/
  | cmp (r1 r2 : Byte)
  /-- PUSH r1: push register (43_stack.md R86). -/
  | push (r1 : Byte)
  /-- POP r1: pop into register (43_stack.md R87). -/
  | pop (r1 : Byte)
  /-- CALL r1: call subroutine through a register (44_control.md R88). -/
  | call (r1 : Byte)
  /-- RET: return from subroutine (44_control.md R89). -/
  | ret
  /-- JMP r1: jump through a register (44_control.md R90). -/
  | jmp (r1 : Byte)
  /-- JEQ r1: jump through a register if equal (44_control.md R91). -/
  | jeq (r1 : Byte)
  /-- JNE r1: jump through a register if not equal (44_control.md R92). -/
  | jne (r1 : Byte)
  deriving DecidableEq, Repr

end Sys2Proof
end

