-- ==== Sys2Proof/Decode.lean ====
section
/-! DEFINITION. The opcode map (30_encoding.md R51), the decoder, total on any bytes and rejecting by name, and the
encoder. -/

namespace Sys2Proof

/-- The four formats of 30_encoding.md R50. -/
inductive Format where
  /-- The opcode alone. -/
  | f0
  /-- The opcode and one register operand. -/
  | f1r
  /-- The opcode, a register operand and an immediate. -/
  | f2ri
  /-- The opcode and two register operands. -/
  | f2rr
  deriving DecidableEq, Repr

/-- The identities of the 13 opcodes: the rows of the dispatch table (30_encoding.md R51, 40_cycle.md R58). -/
inductive Opcode where
  | hlt | ldi | prn | mul | add | cmp | push | pop | call | ret | jmp | jeq | jne
  deriving DecidableEq, Repr

/-- The dispatch table's rows in the order of 30_encoding.md R51. -/
def Opcode.all : List Opcode :=
  [.hlt, .ldi, .prn, .mul, .add, .cmp, .push, .pop, .call, .ret, .jmp, .jeq, .jne]

/-- The binary column of 30_encoding.md R51. -/
def Opcode.code : Opcode → Byte
  | .hlt  => 0b00000001
  | .ldi  => 0b10000010
  | .prn  => 0b01000111
  | .mul  => 0b10100010
  | .add  => 0b10100000
  | .cmp  => 0b10100111
  | .push => 0b01000101
  | .pop  => 0b01000110
  | .call => 0b01010000
  | .ret  => 0b00010001
  | .jmp  => 0b01010100
  | .jeq  => 0b01010101
  | .jne  => 0b01010110

/-- The format column of 30_encoding.md R51. -/
def Opcode.format : Opcode → Format
  | .hlt  => .f0
  | .ldi  => .f2ri
  | .prn  => .f1r
  | .mul  => .f2rr
  | .add  => .f2rr
  | .cmp  => .f2rr
  | .push => .f1r
  | .pop  => .f1r
  | .call => .f1r
  | .ret  => .f0
  | .jmp  => .f1r
  | .jeq  => .f1r
  | .jne  => .f1r

/-- The opcode an opcode byte selects: an exact match of all 8 bits, and nothing else (30_encoding.md R51, R53). `none` for
each of the 243 illegal bytes (R52). -/
def Opcode.ofByte? (b : Byte) : Option Opcode :=
  Opcode.all.find? fun o => o.code == b

/-- The operand count `n = op[7:6]` (30_encoding.md R46), read from the opcode byte at each fetch. -/
def operandCount (op : Byte) : Nat :=
  (op.extractLsb' 6 2).toNat

/-- The length of the instruction an opcode byte begins, `1 + op[7:6]` (30_encoding.md R54). -/
def instrLength (op : Byte) : Nat :=
  1 + operandCount op

/-- Why no instruction could be read from a list of bytes. -/
inductive DecodeError where
  /-- The first byte is none of the 13 opcodes (30_encoding.md R52). -/
  | unknownOpcode (op : Byte)
  /-- The bytes end before the instruction does. -/
  | truncated
  deriving DecidableEq, Repr

/-- The instruction of an opcode and its two operand bytes; a byte the format lacks is ignored. -/
def Opcode.withOperands (o : Opcode) (op1 op2 : Byte) : Instr :=
  match o with
  | .hlt  => .hlt
  | .ldi  => .ldi op1 op2
  | .prn  => .prn op1
  | .mul  => .mul op1 op2
  | .add  => .add op1 op2
  | .cmp  => .cmp op1 op2
  | .push => .push op1
  | .pop  => .pop op1
  | .call => .call op1
  | .ret  => .ret
  | .jmp  => .jmp op1
  | .jeq  => .jeq op1
  | .jne  => .jne op1

/-- The `n` operand bytes at the head of a list and what follows them (40_cycle.md R62); a byte that is not read is
0. `none` when the list is too short. -/
def takeOperands (n : Nat) (bytes : List Byte) : Option (Byte × Byte × List Byte) :=
  match n, bytes with
  | 0, rest => some (0, 0, rest)
  | 1, a :: rest => some (a, 0, rest)
  | 2, a :: b :: rest => some (a, b, rest)
  | _, _ => none

/-- Read one instruction from a list of bytes: validate the opcode first (40_cycle.md R61), then take its operand bytes
(R62). Answers the instruction and the bytes after it. -/
def decode : List Byte → Except DecodeError (Instr × List Byte)
  | [] => .error .truncated
  | op :: rest =>
    match Opcode.ofByte? op with
    | none => .error (.unknownOpcode op)
    | some o =>
      match takeOperands (operandCount op) rest with
      | none => .error .truncated
      | some (op1, op2, rest') => .ok (o.withOperands op1 op2, rest')

/-- The opcode of an instruction. -/
def Instr.opcode : Instr → Opcode
  | .hlt => .hlt
  | .ldi _ _ => .ldi
  | .prn _ => .prn
  | .mul _ _ => .mul
  | .add _ _ => .add
  | .cmp _ _ => .cmp
  | .push _ => .push
  | .pop _ => .pop
  | .call _ => .call
  | .ret => .ret
  | .jmp _ => .jmp
  | .jeq _ => .jeq
  | .jne _ => .jne

/-- The operand bytes of an instruction, in ascending address order (30_encoding.md R46). -/
def Instr.operandBytes : Instr → List Byte
  | .hlt => []
  | .ldi r1 imm8 => [r1, imm8]
  | .prn r1 => [r1]
  | .mul r1 r2 => [r1, r2]
  | .add r1 r2 => [r1, r2]
  | .cmp r1 r2 => [r1, r2]
  | .push r1 => [r1]
  | .pop r1 => [r1]
  | .call r1 => [r1]
  | .ret => []
  | .jmp r1 => [r1]
  | .jeq r1 => [r1]
  | .jne r1 => [r1]

/-- The bytes of an instruction: the opcode byte, then the operand bytes (30_encoding.md R46, R50, R51). -/
def encode (i : Instr) : List Byte :=
  i.opcode.code :: i.operandBytes

/-- The three bytes of an instruction whose bits spec/opcode_table.json numbers: bit 0 is the least significant bit of the
first byte, and every bit from `nbits` on is 0. -/
def tableBytes (nbits w : Nat) : List Byte :=
  let v := w % 2 ^ nbits
  [BitVec.ofNat 8 v, BitVec.ofNat 8 (v / 256), BitVec.ofNat 8 (v / 65536)]

/-- The instruction the decoder reads from an instruction whose bits, numbered as spec/opcode_table.json numbers them, are
`w`; bits from `nbits` on are 0. -/
def decodeTableWord (nbits w : Nat) : Option Instr :=
  match decode (tableBytes nbits w) with
  | .ok (i, _) => some i
  | .error _ => none

end Sys2Proof
end

