-- ==== Sys2Proof/Config.lean ====
section
/-! DEFINITION. The four configuration parameters of 00_scope.md R6, each with the normative value and the alternative the
spec gives in full. The spec leaves no value open, so this file holds no free value. -/

namespace Sys2Proof

/-- `CMP_MODE` (00_scope.md R6, decision D1): what CMP does. -/
inductive CmpMode where
  /-- CMP compares two registers and writes FL (42_alu.md R81): the normative value. -/
  | compare
  /-- CMP sets pc from a register, as the source does (42_alu.md R82). -/
  | jumpBug
  deriving DecidableEq, Repr

/-- `PC_OWNER_SET` (00_scope.md R6, decision D3): the opcodes after which the engine does not advance pc. -/
inductive PcOwnerSet where
  /-- CALL and RET (40_cycle.md R66): the normative value. -/
  | callRet
  /-- CALL, RET, JMP, JEQ and JNE (90_conflicts.md C1). -/
  | callRetJumps
  deriving DecidableEq, Repr

/-- `ADDR_MODE` (00_scope.md R6, decision D4): what an address past 255 does. -/
inductive AddrMode where
  /-- Every address and pc computation is modulo 256 (20_memory.md R33): the normative value. -/
  | wrap
  /-- An address outside 0 to 255 faults, as 40_cycle.md R70 says. -/
  | fault
  deriving DecidableEq, Repr

/-- The parameters together. They are fixed for one machine: no instruction and no step changes them. -/
structure Config where
  cmpMode    : CmpMode
  pcOwnerSet : PcOwnerSet
  addrMode   : AddrMode
  /-- `START_PC`, the address the host has the first step fetch at (10_state.md R23). -/
  startPc    : Addr
  deriving DecidableEq, Repr

/-- The values 00_scope.md R6 fixes for the hardware. -/
def Config.normative : Config where
  cmpMode    := .compare
  pcOwnerSet := .callRet
  addrMode   := .wrap
  startPc    := 0x00

end Sys2Proof
end

