-- ==== Sys2Proof/Machine/State.lean ====
section
/-! DEFINITION. The machine's state as plain data (10_state.md), its reset value, and the reasons a step can stop. -/

namespace Sys2Proof.Machine

/-- The eight general registers R0 to R7; R7 is the stack pointer (10_state.md R8, R10). -/
inductive Reg where
  | r0 | r1 | r2 | r3 | r4 | r5 | r6 | r7
  deriving DecidableEq, Repr

/-- The register file `x[0..7]` (10_state.md R8). -/
structure RegFile where
  x0 : Byte
  x1 : Byte
  x2 : Byte
  x3 : Byte
  x4 : Byte
  x5 : Byte
  x6 : Byte
  x7 : Byte
  deriving DecidableEq, Repr

/-- `status` (10_state.md R17): `running`, `halted` or `faulted`. -/
inductive Status where
  | running
  | halted
  | faulted
  deriving DecidableEq, Repr

/-- The causes of a fault (60_exceptions.md R96, R97, R98). The spec names no other (R99). -/
inductive Cause where
  /-- The opcode byte is none of the 13 opcodes. -/
  | unknownInstruction
  /-- A register-operand byte is 8 or more. -/
  | invalidRegister
  /-- Under `ADDR_MODE = fault` only: an operand address, CALL's return address or the advanced pc exceeds 255. -/
  | addressOutOfRange
  deriving DecidableEq, Repr

/-- The fault record (10_state.md R18): the cause, and the address of the opcode byte of the faulting instruction. -/
structure FaultRecord where
  cause   : Cause
  address : Addr
  deriving DecidableEq, Repr

/-- The memory (20_memory.md R31): pairs of an address and the byte there, in the canonical form `Memory.wf`
(Machine/Ops.lean); an address not listed reads as `Memory.unlisted`. -/
abbrev Memory := List Host.Cell

/-- The whole state of the block (10_state.md, the record at its head). `config` is the model's own field: the parameters of
00_scope.md R6, which no step changes (log 1). -/
structure State where
  /-- The general registers (10_state.md R8 to R12). -/
  regs   : RegFile
  /-- The program counter (10_state.md R13). -/
  pc     : Addr
  /-- The flags register FL: bit 2 G, bit 1 L, bit 0 E, bits 7 to 3 always 0 (10_state.md R14). -/
  fl     : Byte
  /-- The run status (10_state.md R17). -/
  status : Status
  /-- The fault record (10_state.md R18). -/
  fault  : Option FaultRecord
  /-- The output port, oldest byte first (10_state.md R19). -/
  out    : List Byte
  /-- The memory (10_state.md R20). -/
  mem    : Memory
  /-- The configuration parameters (00_scope.md R6). -/
  config : Config
  deriving DecidableEq, Repr

/-- Why the machine would stop with no next state: there is no such reason. Every fault of the spec is fatal to the RUN and
yet a state of the machine (`status = faulted` with its fault record, 10_state.md R17, R18; 60_exceptions.md R95), so taking
it is a next state (log 2), and every address of the address space exists (20_memory.md R31). No meaning raises a fault of
this type; that is safe, for the spec names no other stop. -/
inductive Fault where
  deriving DecidableEq, Repr

/-- Why an instruction would have no meaning. -/
inductive Refusal where
  /-- Raised by an arm of `exec` whose instruction is not modelled yet, and by nothing else; no arm is left that does. Safe:
  the model stops where the hardware goes on. -/
  | notModelled (mnemonic : String)
  deriving DecidableEq, Repr

/-- What a step or a meaning answers. -/
abbrev Result := Host.Outcome State Fault Refusal

/-- The state right after reset with the parameters `config` and with `mem` as the image the host supplied
(70_reset_and_hazards.md R110). SP is 0xF4 by R24; R0 to R6 and FL are 0x00 by R25 and R26, the spec's own decisions D14 and
D13 (log 4). -/
def State.initial (config : Config) (mem : Memory) : State where
  regs   := { x0 := 0x00, x1 := 0x00, x2 := 0x00, x3 := 0x00, x4 := 0x00, x5 := 0x00, x6 := 0x00, x7 := 0xF4 }
  pc     := config.startPc
  fl     := 0x00
  status := .running
  fault  := none
  out    := []
  mem    := mem
  config := config

/-- The machine right after reset under the normative parameters, with no program loaded: memory lists nothing, so every
byte reads as the loader's fill (20_memory.md R35). Reset itself writes no memory; a program is there when the host has
supplied an image (Machine/HostInterface.lean, log 7). -/
def State.reset : State :=
  State.initial Config.normative []

end Sys2Proof.Machine
end

