-- ==== Sys2Proof/Machine/Ops.lean ====
section
/-! DEFINITION. The named operations on registers, memory, the stack, the output port, the program counter and the run
status, and the taking of a fault: everything the meanings are made of. -/

namespace Sys2Proof.Machine

/-! ### Registers -/

/-- `x[r]`. No register is hard-wired (10_state.md R12). -/
def RegFile.get (f : RegFile) : Reg → Byte
  | .r0 => f.x0
  | .r1 => f.x1
  | .r2 => f.x2
  | .r3 => f.x3
  | .r4 => f.x4
  | .r5 => f.x5
  | .r6 => f.x6
  | .r7 => f.x7

/-- `x[r] <- v`. Every register takes every value, R7 among them (10_state.md R9, R11). -/
def RegFile.set (f : RegFile) (r : Reg) (v : Byte) : RegFile :=
  match r with
  | .r0 => { f with x0 := v }
  | .r1 => { f with x1 := v }
  | .r2 => { f with x2 := v }
  | .r3 => { f with x3 := v }
  | .r4 => { f with x4 := v }
  | .r5 => { f with x5 := v }
  | .r6 => { f with x6 := v }
  | .r7 => { f with x7 := v }

/-- `x[r]` in a state. -/
def State.getReg (s : State) (r : Reg) : Byte :=
  s.regs.get r

/-- `x[r] <- v` in a state. -/
def State.setReg (s : State) (r : Reg) (v : Byte) : State :=
  { s with regs := s.regs.set r v }

/-- The stack pointer, register 7 (10_state.md R10). -/
def State.sp (s : State) : Addr :=
  s.getReg .r7

/-! ### Memory -/

/-- What an address that memory does not list reads as: 0x00, the byte the reference loader leaves where it writes nothing
(20_memory.md R35, decision D15; log 5). -/
def Memory.unlisted : Byte := 0x00

/-- The canonical form: addresses in the address space and strictly rising, and no entry equal to what an unlisted address
reads as. Equal memories are then equal lists. -/
def Memory.wf : Memory → Bool
  | [] => true
  | (a, v) :: rest =>
    decide (a < 256) && v != Memory.unlisted && rest.all (fun c => decide (a < c.1)) && Memory.wf rest

/-- The byte listed under an address key. -/
def Memory.lookup : Memory → Nat → Byte
  | [], _ => Memory.unlisted
  | (k, w) :: rest, a => if k = a then w else Memory.lookup rest a

/-- A cell put in its place in a list that holds no cell of its address. -/
def Memory.insertCell (a : Nat) (v : Byte) : Memory → Memory
  | [] => [(a, v)]
  | (k, w) :: rest => if a < k then (a, v) :: (k, w) :: rest else (k, w) :: Memory.insertCell a v rest

/-- `MemRead(addr, 1)` (20_memory.md R32). A read changes nothing (R38). -/
def Memory.read (m : Memory) (a : Addr) : Byte :=
  m.lookup a.toNat

/-- `MemWrite(addr, 1, v)` (20_memory.md R32): the byte written and no other changes (R38). The old cell of the address is
taken out, and a byte equal to `Memory.unlisted` is not listed. -/
def Memory.write (m : Memory) (a : Addr) (v : Byte) : Memory :=
  let cleared := m.filter fun c => c.1 != a.toNat
  if v = Memory.unlisted then cleared else Memory.insertCell a.toNat v cleared

/-! ### The program counter, the output port and the run status -/

/-- `pc <- target`. Any address is a valid pc (10_state.md R13). -/
def State.setPc (s : State) (target : Addr) : State :=
  { s with pc := target }

/-- `out(v)`: append a byte to the output port (10_state.md R19). -/
def State.output (s : State) (v : Byte) : State :=
  { s with out := s.out ++ [v] }

/-- A step is possible only while the status is `running` (40_cycle.md R59). -/
def State.isRunning (s : State) : Bool :=
  s.status == .running

/-- The halted flag set and the halt check (40_cycle.md R65, 44_control.md R93): the step ends in `halted`, and pc keeps the
address of the HLT. -/
def State.halt (s : State) : State :=
  { s with status := .halted }

/-- TAKING A FAULT, `raise Fault(cause)` (60_exceptions.md R95): the status becomes `faulted` and the fault record holds the
cause and the address of the faulting instruction's opcode byte. Nothing else changes: no handler, no vector, no saved
context, and pc stays what it is (R95, R100). There is no return from a fault (R103): only a reset leaves `faulted`. -/
def State.takeFault (s : State) (cause : Cause) (pc0 : Addr) : State :=
  { s with status := .faulted, fault := some { cause := cause, address := pc0 } }

/-! ### Addresses and the advance -/

/-- The address `a + k`: modulo 256 under `ADDR_MODE = wrap` (20_memory.md R33), and `none` past 255 under
`ADDR_MODE = fault` (40_cycle.md R70). -/
def addrPlus (mode : AddrMode) (a : Addr) (k : Nat) : Option Addr :=
  match mode with
  | .wrap => some (a + BitVec.ofNat 8 k)
  | .fault => if a.toNat + k ≤ 255 then some (a + BitVec.ofNat 8 k) else none

/-- The engine's advance (40_cycle.md R67): `k` added to the pc the handler left. Under `ADDR_MODE = fault` an advance past
255 faults with the address of the instruction, the handler's effects standing and pc staying as the handler left it
(R70 item 3). -/
def State.advance (s : State) (pc0 : Addr) (k : Nat) : State :=
  match addrPlus s.config.addrMode s.pc k with
  | some next => s.setPc next
  | none => s.takeFault .addressOutOfRange pc0

/-- Whether an opcode is in `PC_OWNER_SET`, by its identity (40_cycle.md R66). -/
def ownsPc (owners : PcOwnerSet) (o : Opcode) : Bool :=
  match owners with
  | .callRet => [Opcode.call, .ret].contains o
  | .callRetJumps => [Opcode.call, .ret, .jmp, .jeq, .jne].contains o

/-- What the engine does after a handler that did not halt (40_cycle.md R66, R67): an opcode in `PC_OWNER_SET` keeps the pc
its handler wrote; any other advances by `1 + n`. -/
def State.complete (s : State) (o : Opcode) (pc0 : Addr) : State :=
  if ownsPc s.config.pcOwnerSet o then s else s.advance pc0 (instrLength o.code)

/-! ### The stack -/

/-- The push primitive (43_stack.md R83): SP is decremented, then the byte is written at the new SP. The byte is a function
of the state after the decrement, so that a register is read then (R86). The stack is not checked (R85). -/
def State.pushWith (s : State) (v : State → Byte) : State :=
  let t := s.setReg .r7 (s.sp - 1)
  { t with mem := t.mem.write t.sp (v t) }

/-- The byte at the top of the stack (43_stack.md R84): read at the current SP. -/
def State.top (s : State) : Byte :=
  s.mem.read s.sp

/-- The second half of a pop (43_stack.md R84): SP is incremented. -/
def State.dropTop (s : State) : State :=
  s.setReg .r7 (s.sp + 1)

end Sys2Proof.Machine
end

