-- ==== Sys2Proof/Machine/Flags.lean ====
section
/-! DEFINITION. The flags register FL (10_state.md R14 to R16) and the one computation that writes it, the ALU's COMPARE
(42_alu.md R77). -/

namespace Sys2Proof.Machine

/-- FL after a COMPARE of two values: bits 7 to 3 zero, then G, L and E of the unsigned comparison (42_alu.md R77). -/
def compareFlags (a b : Byte) : Byte :=
  0#5 ++ BitVec.ofBool (decide (a.toNat > b.toNat)) ++ BitVec.ofBool (decide (a.toNat < b.toNat))
    ++ BitVec.ofBool (decide (a.toNat = b.toNat))

/-- FL.G, bit 2: the last COMPARE found the first operand greater (10_state.md R14). No instruction reads it (R16). -/
def State.flagG (s : State) : Bool :=
  s.fl.getLsbD 2

/-- FL.L, bit 1: the last COMPARE found the first operand less (10_state.md R14). No instruction reads it (R16). -/
def State.flagL (s : State) : Bool :=
  s.fl.getLsbD 1

/-- FL.E, bit 0: the last COMPARE found the operands equal (10_state.md R14). JEQ and JNE read it (R16). -/
def State.flagE (s : State) : Bool :=
  s.fl.getLsbD 0

end Sys2Proof.Machine
end

