-- ==== Sys2Proof/Machine/Operands.lean ====
section
/-! DEFINITION. The operand forms: a register operand (30_encoding.md R48) and the step's register check (R49, 40_cycle.md
R63). The other form, an immediate, is the operand byte itself, unchanged. -/

namespace Sys2Proof.Machine

/-- The register a register-operand byte names; `none` for a byte of 8 or more (30_encoding.md R49). -/
def Reg.ofByte? (b : Byte) : Option Reg :=
  match b.toNat with
  | 0 => some .r0
  | 1 => some .r1
  | 2 => some .r2
  | 3 => some .r3
  | 4 => some .r4
  | 5 => some .r5
  | 6 => some .r6
  | 7 => some .r7
  | _ => none

/-- The operand byte that names a register: its index (10_state.md R8). -/
def Reg.toByte : Reg → Byte
  | .r0 => 0
  | .r1 => 1
  | .r2 => 2
  | .r3 => 3
  | .r4 => 4
  | .r5 => 5
  | .r6 => 6
  | .r7 => 7

/-- Run a handler that has one register operand: a byte of 8 or more raises `Fault(InvalidRegister)` before the handler and
changes nothing else (40_cycle.md R63). -/
def withReg (b : Byte) (s : State) (handler : Reg → State) : State :=
  match Reg.ofByte? b with
  | some r => handler r
  | none => s.takeFault .invalidRegister s.pc

/-- Run a handler that has two register operands: operand 1 is checked before operand 2 (40_cycle.md R63). -/
def withRegs (b1 b2 : Byte) (s : State) (handler : Reg → Reg → State) : State :=
  withReg b1 s fun a => withReg b2 s fun b => handler a b

end Sys2Proof.Machine
end

