-- ==== Sys2Proof/Machine/Alu.lean ====
section
/-! DEFINITION. The ALU's three functions (42_alu.md R74 to R78) and the instructions that use them: MUL, ADD and CMP. -/

namespace Sys2Proof.Machine

/-- ALU function ADD (42_alu.md R75): the sum modulo 256; FL is not written. -/
def State.aluAdd (s : State) (a b : Reg) : State :=
  s.setReg a (s.getReg a + s.getReg b)

/-- ALU function MULTIPLY (42_alu.md R76): the low 8 bits of the product; FL is not written. -/
def State.aluMultiply (s : State) (a b : Reg) : State :=
  s.setReg a (s.getReg a * s.getReg b)

/-- ALU function COMPARE (42_alu.md R77): writes FL and nothing else. -/
def State.aluCompare (s : State) (a b : Reg) : State :=
  { s with fl := compareFlags (s.getReg a) (s.getReg b) }

/-- MUL r1, r2 (42_alu.md R80). -/
def execMul (r1 r2 : Byte) (s : State) : Result :=
  .next (withRegs r1 r2 s fun a b => (s.aluMultiply a b).complete .mul s.pc)

/-- ADD r1, r2 (42_alu.md R79). -/
def execAdd (r1 r2 : Byte) (s : State) : Result :=
  .next (withRegs r1 r2 s fun a b => (s.aluAdd a b).complete .add s.pc)

/-- CMP r1, r2: under `CMP_MODE = compare` it runs COMPARE (42_alu.md R81); under `jump_bug` it sets pc from x[r1], the
second operand byte being ignored, and the engine then advances (R82). -/
def execCmp (r1 r2 : Byte) (s : State) : Result :=
  match s.config.cmpMode with
  | .compare => .next (withRegs r1 r2 s fun a b => (s.aluCompare a b).complete .cmp s.pc)
  | .jumpBug => .next (withReg r1 s fun a => (s.setPc (s.getReg a)).complete .cmp s.pc)

end Sys2Proof.Machine
end

