-- ==== Sys2Proof/Machine/Control.lean ====
section
/-! DEFINITION. Control transfer: CALL, RET, JMP, JEQ, JNE and HLT (44_control.md). -/

namespace Sys2Proof.Machine

/-- The handler of a conditional jump (44_control.md R91, R92). Taken: pc becomes x[r]. Not taken: nothing, and the engine
advances; but when the opcode is in `PC_OWNER_SET` the engine does not, and the handler falls through by itself with
`pc <- pc0 +8 2`. The handler never faults. That R91's faults "taken with x[r1] >= 254" and "not taken with pc0 = 254" are
the engine's advance (40_cycle.md R70 item 3), and so do not occur under the alternative `PC_OWNER_SET`, is the model's
reading (DEDUCED, log 3). -/
def State.branch (s : State) (o : Opcode) (taken : Bool) (r : Reg) : State :=
  if taken then s.setPc (s.getReg r)
  else if ownsPc s.config.pcOwnerSet o then s.setPc (s.pc + BitVec.ofNat 8 (instrLength o.code))
  else s

/-- CALL r1 (44_control.md R88): push the return address, then set pc to x[r1], read after the push. Under
`ADDR_MODE = fault` a return address past 255 faults before any write (40_cycle.md R70 item 2). -/
def execCall (r1 : Byte) (s : State) : Result :=
  .next (withReg r1 s fun a =>
    match addrPlus s.config.addrMode s.pc 2 with
    | some ret =>
      let t := s.pushWith fun _ => ret
      (t.setPc (t.getReg a)).complete .call s.pc
    | none => s.takeFault .addressOutOfRange s.pc)

/-- RET (44_control.md R89): pc becomes the byte at SP, then SP is incremented. -/
def execRet (s : State) : Result :=
  .next ((s.setPc s.top).dropTop.complete .ret s.pc)

/-- JMP r1 (44_control.md R90): pc becomes x[r1]; under the normative `PC_OWNER_SET` the engine then advances by 2. -/
def execJmp (r1 : Byte) (s : State) : Result :=
  .next (withReg r1 s fun a => (s.setPc (s.getReg a)).complete .jmp s.pc)

/-- JEQ r1 (44_control.md R91): a jump as JMP if FL.E is 1, else a fall-through. Its faults are those of the register check and
of the engine's advance, in both cases (log 3). -/
def execJeq (r1 : Byte) (s : State) : Result :=
  .next (withReg r1 s fun a => (s.branch .jeq s.flagE a).complete .jeq s.pc)

/-- JNE r1 (44_control.md R92): a jump as JMP if FL.E is 0, else a fall-through, with the faults of JEQ (log 3). -/
def execJne (r1 : Byte) (s : State) : Result :=
  .next (withReg r1 s fun a => (s.branch .jne (!s.flagE) a).complete .jne s.pc)

/-- HLT (44_control.md R93): the status becomes `halted`; pc is not advanced (40_cycle.md R65). -/
def execHlt (s : State) : Result :=
  .next s.halt

end Sys2Proof.Machine
end

