-- ==== Sys2Proof/Machine/LoadOutput.lean ====
section
/-! DEFINITION. Load-immediate and output: LDI and PRN (41_load_output.md). -/

namespace Sys2Proof.Machine

/-- LDI r1, imm8 (41_load_output.md R72): the immediate is used unchanged. -/
def execLdi (r1 imm8 : Byte) (s : State) : Result :=
  .next (withReg r1 s fun a => (s.setReg a imm8).complete .ldi s.pc)

/-- PRN r1 (41_load_output.md R73): append x[r1] to the output port. -/
def execPrn (r1 : Byte) (s : State) : Result :=
  .next (withReg r1 s fun a => (s.output (s.getReg a)).complete .prn s.pc)

end Sys2Proof.Machine
end

