-- ==== Sys2Proof/Machine/Stack.lean ====
section
/-! DEFINITION. The stack instructions: PUSH and POP (43_stack.md). -/

namespace Sys2Proof.Machine

/-- PUSH r1 (43_stack.md R86): SP is decremented, then x[r1], read after the decrement, is written at the new SP. -/
def execPush (r1 : Byte) (s : State) : Result :=
  .next (withReg r1 s fun a => (s.pushWith fun t => t.getReg a).complete .push s.pc)

/-- POP r1 (43_stack.md R87): x[r1] takes the byte at SP, then x[7] is incremented, in this order, so that POP R7 ends at
the popped byte plus 1. -/
def execPop (r1 : Byte) (s : State) : Result :=
  .next (withReg r1 s fun a => (s.setReg a s.top).dropTop.complete .pop s.pc)

end Sys2Proof.Machine
end

