-- ==== Sys2Proof/Machine/Dispatch.lean ====
section
/-! DEFINITION. The dispatch table (40_cycle.md R58): one arm per instruction. -/

namespace Sys2Proof.Machine

def exec (i : Instr) (s : State) : Host.Outcome State Fault Refusal :=
  match i with
  | .hlt => Sys2Proof.Machine.execHlt s
  | .ldi r1 imm8 => Sys2Proof.Machine.execLdi r1 imm8 s
  | .prn r1 => Sys2Proof.Machine.execPrn r1 s
  | .mul r1 r2 => Sys2Proof.Machine.execMul r1 r2 s
  | .add r1 r2 => Sys2Proof.Machine.execAdd r1 r2 s
  | .cmp r1 r2 => Sys2Proof.Machine.execCmp r1 r2 s
  | .push r1 => Sys2Proof.Machine.execPush r1 s
  | .pop r1 => Sys2Proof.Machine.execPop r1 s
  | .call r1 => Sys2Proof.Machine.execCall r1 s
  | .ret => Sys2Proof.Machine.execRet s
  | .jmp r1 => Sys2Proof.Machine.execJmp r1 s
  | .jeq r1 => Sys2Proof.Machine.execJeq r1 s
  | .jne r1 => Sys2Proof.Machine.execJne r1 s

end Sys2Proof.Machine
end

