-- ==== Sys2Proof/Machine/Fetch.lean ====
section
/-! DEFINITION. The fetch: validating the opcode and reading the operand bytes (40_cycle.md R60 to R62), and the placing of
an instruction where the next step fetches it. -/

namespace Sys2Proof.Machine

/-- The bytes the engine can fetch at the addresses pc, pc + 1 and pc + 2 (20_memory.md R36): all three, the addresses taken
modulo 256, under `ADDR_MODE = wrap`; under `ADDR_MODE = fault` those at addresses up to 255 (40_cycle.md R70 item 1). -/
def State.fetchBytes (s : State) : List Byte :=
  ([0, 1, 2].filterMap fun k => addrPlus s.config.addrMode s.pc k).map s.mem.read

/-- The instruction at pc, or the cause of the fault its fetch raises: an illegal opcode byte comes first (40_cycle.md R61),
then an operand byte past 255 (R70 item 1; the order is 60_exceptions.md R101). -/
def State.fetch (s : State) : Except Cause Instr :=
  match decode s.fetchBytes with
  | .ok (i, _) => .ok i
  | .error (.unknownOpcode _) => .error .unknownInstruction
  | .error .truncated => .error .addressOutOfRange

/-- Bytes written to memory at ascending addresses (30_encoding.md R46), modulo 256. -/
def Memory.writeBytes (m : Memory) (a : Addr) : List Byte → Memory
  | [] => m
  | b :: rest => Memory.writeBytes (m.write a b) (a + 1) rest

/-- A state with bytes placed at pc and with the engine running, which a fetch needs (40_cycle.md R59). It stands for the
host's load (log 7). -/
def State.placeAtPc (s : State) (bytes : List Byte) : State :=
  { s with mem := s.mem.writeBytes s.pc bytes, status := .running, fault := none }

end Sys2Proof.Machine
end

