-- ==== Sys2Proof/Machine/Step.lean ====
section
/-! DEFINITION. One step of the engine (40_cycle.md): R59 to R62 here and in Machine/Fetch.lean, R63 to R67 in the
meanings. -/

namespace Sys2Proof.Machine

/-- One step. A state that is not running is final and comes back unchanged (40_cycle.md R59). Otherwise the instruction at
pc is fetched; a fetch that faults takes that fault (R61, R70), and any other runs the instruction (R63 to R67). -/
def step (s : State) : Host.Outcome State Fault Refusal :=
  if s.isRunning then
    match s.fetch with
    | .ok i => exec i s
    | .error cause => .next (s.takeFault cause s.pc)
  else .next s

/-- The state with the instruction whose bits are `w` placed where `step` fetches its next instruction (log 7). -/
def State.withFetchWord (s : State) (nbits w : Nat) : State :=
  s.placeAtPc (tableBytes nbits w)

end Sys2Proof.Machine
end

