-- ==== Sys2Proof/Machine/HostInterface.lean ====
section
/-! DEFINITION. What the host may do to the block (10_state.md R28, R29; 70_reset_and_hazards.md R110 to R113): supply an
image and the parameters, reset, and observe. No step calls any of it: while the engine runs the host may change nothing
(00_scope.md R7). -/

namespace Sys2Proof.Machine

/-- The load interface: the image's bytes from address 0 on, the rest as the loader leaves it (20_memory.md R35). More than
256 bytes, or a value above 255, is refused and the engine does not start (30_encoding.md R57, decision D29). -/
def loadImage (image : List Nat) : Option Memory :=
  if image.length ≤ 256 ∧ (image.all fun v => decide (v ≤ 255)) then
    some (Memory.writeBytes [] 0 (image.map (BitVec.ofNat 8)))
  else none

/-- Load and reset before the first step: the state a run begins in (70_reset_and_hazards.md R110, R112). -/
def powerOn (config : Config) (image : List Nat) : Option State :=
  (loadImage image).map (State.initial config)

/-- A new reset of a block that has run: the host takes it only while the engine is not running (70_reset_and_hazards.md
R111), and nothing of the earlier run is left (R110). -/
def State.hostReset (s : State) (config : Config) (image : List Nat) : Option State :=
  if s.isRunning then none else powerOn config image

/-- What the host may read at any time (10_state.md R29): the observation of a run (40_cycle.md R71). -/
structure Observation where
  status : Status
  fault  : Option FaultRecord
  out    : List Byte
  deriving DecidableEq, Repr

/-- Reading `status`, `fault` and `out`, which is allowed at any time and changes nothing (10_state.md R29). -/
def State.observe (s : State) : Observation :=
  { status := s.status, fault := s.fault, out := s.out }

/-- Reading the whole state, which is allowed once the engine is not running (10_state.md R29). -/
def State.observeAll (s : State) : Option State :=
  if s.isRunning then none else some s

/-- The host's rendering of the output port: each byte one line with its unsigned decimal value, no leading zeros
(10_state.md R19, 41_load_output.md R73). -/
def renderOut (out : List Byte) : String :=
  String.join (out.map fun v => toString v.toNat ++ "\n")

/-- The status port's encoding (60_exceptions.md R95, decision D33). -/
def Status.portCode : Status → Nat
  | .running => 0
  | .halted  => 1
  | .faulted => 2

/-- The codes of the fault causes (60_exceptions.md R96 to R98, decision D33). -/
def Cause.portCode : Cause → Nat
  | .unknownInstruction => 1
  | .invalidRegister    => 2
  | .addressOutOfRange  => 3

end Sys2Proof.Machine
end

