-- ==== Sys2Proof/WellFormed.lean ====
section
/-! DEFINITION. Well-formed instructions: every register operand names one of the eight registers (30_encoding.md R49). -/

namespace Sys2Proof

/-- The operand bytes that are register operands, in the order they are checked (30_encoding.md R48, R49, R51). LDI's second
operand is an immediate; under `CMP_MODE = jump_bug` CMP's second operand byte is ignored. -/
def Instr.registerOperands (mode : CmpMode) : Instr → List Byte
  | .hlt => []
  | .ldi r1 _ => [r1]
  | .prn r1 => [r1]
  | .mul r1 r2 => [r1, r2]
  | .add r1 r2 => [r1, r2]
  | .cmp r1 r2 =>
    match mode with
    | .compare => [r1, r2]
    | .jumpBug => [r1]
  | .push r1 => [r1]
  | .pop r1 => [r1]
  | .call r1 => [r1]
  | .ret => []
  | .jmp r1 => [r1]
  | .jeq r1 => [r1]
  | .jne r1 => [r1]

/-- Every register operand is 0 to 7. An instruction for which this is false is the one that raises
`Fault(InvalidRegister)` (30_encoding.md R49). -/
def Instr.wellFormed (mode : CmpMode) (i : Instr) : Bool :=
  (i.registerOperands mode).all fun b => decide (b.toNat < 8)

end Sys2Proof
end

