-- ==== Sys2Proof/Safety.lean ====
section
/-! DEFINITION. The terms claims are stated in: what a legal state is, how a run ends, when an address computation stays in
memory, and what two states have in common. -/

namespace Sys2Proof.Machine

/-- FL's bits 7 to 3 are 0 and at most one of G, L and E is 1 (10_state.md R14, R26; 42_alu.md R77). -/
abbrev State.FlagsLegal (s : State) : Prop :=
  s.fl = 0x00 ∨ s.fl = 0x01 ∨ s.fl = 0x02 ∨ s.fl = 0x04

/-- There is a fault record exactly while the status is `faulted` (10_state.md R17, R18). -/
abbrev State.RecordLegal (s : State) : Prop :=
  s.fault.isSome = true ↔ s.status = .faulted

/-- The invariant of the machine: memory is in its canonical form, FL is legal, and so is the fault record. -/
abbrev State.Inv (s : State) : Prop :=
  s.mem.wf = true ∧ s.FlagsLegal ∧ s.RecordLegal

/-- A run's clean end (40_cycle.md R71). -/
abbrev State.CleanEnd (s : State) : Prop :=
  s.status = .halted ∧ s.fault = none

/-- A run's error end (40_cycle.md R71). -/
abbrev State.ErrorEnd (s : State) : Prop :=
  s.status = .faulted ∧ s.fault.isSome = true

/-- `a + k` is an address under the given `ADDR_MODE`: always under `wrap`, up to 255 under `fault` (20_memory.md R33,
40_cycle.md R70). -/
abbrev AddrFits (mode : AddrMode) (a : Addr) (k : Nat) : Prop :=
  mode = .wrap ∨ a.toNat + k ≤ 255

/-- In a running state whose opcode byte at pc is `code`, under `ADDR_MODE = fault`, a step at an address from `first` on
faults on the operand fetch with no other change (40_cycle.md R70 item 1). -/
def OperandFetchFaultsFrom (code : Byte) (first : Nat) : Prop :=
  ∀ s : State, s.status = .running → s.config.addrMode = .fault → first ≤ s.pc.toNat → s.mem.read s.pc = code →
    step s = .next (s.takeFault .addressOutOfRange s.pc)

/-- What a conditional jump does when it is taken (`taken`) and when it is not, as 44_control.md R91 and
R92 say of JEQ and JNE alike. Under `ADDR_MODE = fault` a taken jump to 254 or more, and one not taken at 254, fault on the
engine's advance; that they go on under the alternative `PC_OWNER_SET`, where the engine does not advance, is the model's
reading (DEDUCED, log 3). -/
def ConditionalJumpFollowsItsRule (jump : Byte → Instr) (taken : State → Bool) : Prop :=
  (∀ (s : State) (r : Reg), taken s = true → s.config.pcOwnerSet = .callRet → AddrFits s.config.addrMode (s.regs.get r) 2 →
    exec (jump r.toByte) s = .next { s with pc := s.regs.get r + 2 }) ∧
  (∀ (s : State) (r : Reg), taken s = true → s.config.pcOwnerSet = .callRetJumps →
    exec (jump r.toByte) s = .next { s with pc := s.regs.get r }) ∧
  (∀ (s : State) (r : Reg), taken s = false →
    (s.config.pcOwnerSet = .callRet → AddrFits s.config.addrMode s.pc 2) →
    exec (jump r.toByte) s = .next { s with pc := s.pc + 2 }) ∧
  (∀ (s : State) (b : Byte), 8 ≤ b.toNat → exec (jump b) s = .next (s.takeFault .invalidRegister s.pc)) ∧
  (∀ (s : State) (r : Reg), taken s = true → s.config.pcOwnerSet = .callRet → s.config.addrMode = .fault →
    254 ≤ (s.regs.get r).toNat →
    exec (jump r.toByte) s =
      .next { s with pc := s.regs.get r, status := .faulted,
                     fault := some { cause := .addressOutOfRange, address := s.pc } }) ∧
  (∀ (s : State) (r : Reg), taken s = false → s.config.pcOwnerSet = .callRet → s.config.addrMode = .fault → s.pc = 254 →
    exec (jump r.toByte) s = .next (s.takeFault .addressOutOfRange s.pc))

/-- The status and the fault record of `t` are those of `s`, or `t` has taken a fault of the instruction at `s.pc`. -/
abbrev SameStatusOrFaulted (s t : State) : Prop :=
  (t.status = s.status ∧ t.fault = s.fault) ∨
    (t.status = .faulted ∧ ∃ cause, t.fault = some { cause := cause, address := s.pc })

/-- Every byte of memory reads the same in two states. -/
abbrev SameMemory (s t : State) : Prop :=
  ∀ a : Addr, t.mem.read a = s.mem.read a

end Sys2Proof.Machine
end

