-- ==== Sys2Proof/Certificates/Slice0/Obligations.lean ====
section
/-! DEFINITION. The statements for the provers. R<n> is a numbered rule of spec/, D<n> a decision of spec/92_eei_decisions.md:
a statement that rests on a decision, on an inference the spec marks as its own, or on a log entry says so in its docstring. -/

open Sys2Proof Sys2Proof.Machine

/-! ### Reset and the host -/

/-- R24: at reset the stack pointer is 0xF4, whatever the parameters and the image. -/
def Obligations.StackPointerIsF4AtReset : Prop :=
  (∀ (config : Config) (mem : Memory), (State.initial config mem).getReg .r7 = 0xF4) ∧ State.reset.getReg .r7 = 0xF4

/-- Every field at reset (R110). R0 to R6 and FL at 0x00 are the spec's own decisions D14 and D13 (R25, R26; log 4), pc at
START_PC is D16 (R23), status, fault and out are D18 and D19 (R27); that memory lists nothing, and so reads 0x00 everywhere,
is D15 (R35; log 5). -/
def Obligations.ResetSetsEveryField : Prop :=
  (∀ (config : Config) (mem : Memory),
    let s := State.initial config mem
    (∀ r : Reg, r ≠ .r7 → s.getReg r = 0x00) ∧ s.getReg .r7 = 0xF4 ∧ s.pc = config.startPc ∧ s.fl = 0x00 ∧
      s.status = .running ∧ s.fault = none ∧ s.out = [] ∧ s.mem = mem ∧ s.config = config) ∧
  State.reset = State.initial Config.normative [] ∧ State.reset.pc = 0x00 ∧
  ∀ a : Addr, State.reset.mem.read a = 0x00

/-- The load interface (R28, R35, R57, R113): an image of at most 256 values, each at most 255, is the memory from address 0
on, the rest 0x00 (D15), and the engine starts in the reset state; any other image is refused (D29). That the memory is in the
canonical form, `mem.wf`, is the model's choice of how memory is held (log 5, DESIGN CHOICE), no rule of the spec. -/
def Obligations.PowerOnLoadsTheImage : Prop :=
  ∀ (config : Config) (image : List Nat),
    (image.length ≤ 256 ∧ (∀ v ∈ image, v ≤ 255) →
      ∃ mem : Memory, powerOn config image = some (State.initial config mem) ∧ mem.wf = true ∧
        ∀ a : Addr, (mem.read a).toNat = image.getD a.toNat 0) ∧
    (¬ (image.length ≤ 256 ∧ ∀ v ∈ image, v ≤ 255) → powerOn config image = none)

/-- A stopped state is left by no number of steps, only by a new reset, which starts as if nothing had run before (R59, R103,
R110, R111; D17). That the host supplies the parameters and the image anew, so that its reset is a power-on, is the model's
reading (log 9, DEDUCED). -/
def Obligations.OnlyAResetLeavesAStoppedState : Prop :=
  ∀ s : State, s.status ≠ .running →
    (∀ n : Nat, Host.Core.run Sys2Proof.core n s = .next s) ∧
    (∀ (config : Config) (image : List Nat), s.hostReset config image = powerOn config image)

/-- R111 on the host's side, with the model's reading of it (log 9): a reset is refused while the engine runs. -/
def Obligations.NoResetWhileRunning : Prop :=
  ∀ (s : State) (config : Config) (image : List Nat), s.status = .running → s.hostReset config image = none

/-! ### Encoding -/

/-- Words written out from R51's binary column decode to the instruction they stand for, the operand bytes in order (R50). -/
def Obligations.WordsOfTheOpcodeMapDecode : Prop :=
  decode [0b00000001] = .ok (.hlt, []) ∧
  decode [0b10000010, 0b00000011, 0b11111111] = .ok (.ldi 3 255, []) ∧
  decode [0b01000111, 0b00000001] = .ok (.prn 1, []) ∧
  decode [0b10100010, 0b00000000, 0b00000001] = .ok (.mul 0 1, []) ∧
  decode [0b10100000, 0b00000010, 0b00000011] = .ok (.add 2 3, []) ∧
  decode [0b10100111, 0b00000101, 0b00000110] = .ok (.cmp 5 6, []) ∧
  decode [0b01000101, 0b00000111] = .ok (.push 7, []) ∧
  decode [0b01000110, 0b00000100] = .ok (.pop 4, []) ∧
  decode [0b01010000, 0b00000001] = .ok (.call 1, []) ∧
  decode [0b00010001] = .ok (.ret, []) ∧
  decode [0b01010100, 0b00000001] = .ok (.jmp 1, []) ∧
  decode [0b01010101, 0b00000010] = .ok (.jeq 2, []) ∧
  decode [0b01010110, 0b00000110] = .ok (.jne 6, [])

/-- R51: the 13 opcode bytes, each with its operand count and format, and no other byte selects an opcode. -/
def Obligations.ThirteenOpcodesAndNoOther : Prop :=
  (∀ b : Byte, (Opcode.ofByte? b).isSome = true ↔
    b ∈ [0x01, 0x82, 0x47, 0xA2, 0xA0, 0xA7, 0x45, 0x46, 0x50, 0x11, 0x54, 0x55, 0x56]) ∧
  (Opcode.all.map fun o => (o, o.code, operandCount o.code, o.format)) =
    [(.hlt, 0x01, 0, .f0), (.ldi, 0x82, 2, .f2ri), (.prn, 0x47, 1, .f1r), (.mul, 0xA2, 2, .f2rr), (.add, 0xA0, 2, .f2rr),
     (.cmp, 0xA7, 2, .f2rr), (.push, 0x45, 1, .f1r), (.pop, 0x46, 1, .f1r), (.call, 0x50, 1, .f1r), (.ret, 0x11, 0, .f0),
     (.jmp, 0x54, 1, .f1r), (.jeq, 0x55, 1, .f1r), (.jne, 0x56, 1, .f1r)] ∧
  (∀ o : Opcode, Opcode.ofByte? o.code = some o)

/-- R46 and R54: an instruction that decodes is one opcode byte and the operand bytes its two high bits count, at most two,
in the order they lie in memory. -/
def Obligations.LengthIsReadFromTheOpcodeByte : Prop :=
  ∀ (op : Byte) (more : List Byte) (i : Instr) (rest : List Byte), decode (op :: more) = .ok (i, rest) →
    (op >>> 6).toNat ≤ 2 ∧ i.operandBytes.length = (op >>> 6).toNat ∧ more = i.operandBytes ++ rest ∧
      (encode i).length = 1 + (op >>> 6).toNat

/-- Decoding and encoding are inverse, for every instruction with every operand byte, the ill-formed ones among them: no bit of
an encoding is dropped, and no bytes but an instruction's own encoding decode to it (R46, R50, R51). -/
def Obligations.DecodeAndEncodeAgree : Prop :=
  ∀ (bytes : List Byte) (i : Instr) (rest : List Byte), decode bytes = .ok (i, rest) ↔ bytes = encode i ++ rest

/-! ### The step -/

/-- In a running state whose bytes at pc decode to `i`, the operand bytes' addresses being in memory or wrapping, a step is
exactly `exec i`: nothing is added around it, since each meaning ends with the engine's halt check and advance. Operand bytes
read before the handler writes is the spec's decision D9 (R62); an address modulo 256 is D4. -/
def Obligations.StepRunsTheDecodedInstruction : Prop :=
  ∀ (s : State) (i : Instr) (rest : List Byte), s.status = .running →
    decode [s.mem.read s.pc, s.mem.read (s.pc + 1), s.mem.read (s.pc + 2)] = .ok (i, rest) →
    AddrFits s.config.addrMode s.pc i.operandBytes.length →
    step s = exec i s

/-- R61: an opcode byte that is none of the 13 faults with the address of the byte, before any operand is fetched and with no
other change. -/
def Obligations.IllegalOpcodeFaults : Prop :=
  ∀ s : State, s.status = .running →
    s.mem.read s.pc ∉ ([0x01, 0x82, 0x47, 0xA2, 0xA0, 0xA7, 0x45, 0x46, 0x50, 0x11, 0x54, 0x55, 0x56] : List Byte) →
    step s = .next { s with status := .faulted, fault := some { cause := .unknownInstruction, address := s.pc } }

/-- The taking of a fault (R95; the form of the record is the spec's decision D18): status and fault record change, nothing
else does, and the pc stays. -/
def Obligations.TakingAFaultChangesStatusAndRecordOnly : Prop :=
  ∀ (s : State) (cause : Cause) (pc0 : Addr),
    s.takeFault cause pc0 = { s with status := .faulted, fault := some { cause := cause, address := pc0 } }

/-- A register operand of 8 or more faults, whichever instruction and position, used or not, with no other change: the spec's
decisions D7 and D8 (R49, R63, R97). Under `CMP_MODE = jump_bug` CMP's second byte is not checked (D28). -/
def Obligations.IllFormedInstructionsFault : Prop :=
  ∀ (s : State) (i : Instr), i.wellFormed s.config.cmpMode = false →
    exec i s = .next (s.takeFault .invalidRegister s.pc)

/-- Under `ADDR_MODE = fault` an operand byte past 255 faults before the register check and before the handler: decision D4
(R70 item 1, R98, R101). -/
def Obligations.OperandFetchPast255Faults : Prop :=
  ∀ (s : State) (o : Opcode), s.status = .running → s.config.addrMode = .fault → s.mem.read s.pc = o.code →
    s.pc.toNat + operandCount o.code > 255 →
    step s = .next (s.takeFault .addressOutOfRange s.pc)

/-- Every state has a next state: no instruction and no step ends in a stop outside the spec's own halted and faulted
states (log 2). -/
def Obligations.EveryStepAnswersANextState : Prop :=
  (∀ s : State, ∃ t : State, step s = .next t) ∧ ∀ (i : Instr) (s : State), ∃ t : State, exec i s = .next t

/-- R65: only HLT halts, and a step that halts changes the status alone. -/
def Obligations.OnlyHltHalts : Prop :=
  ∀ s t : State, s.status = .running → step s = .next t →
    (t.status = .halted ↔ s.mem.read s.pc = 0x01) ∧ (t.status = .halted → t = { s with status := .halted })

/-- Under the normative `ADDR_MODE = wrap` a running step faults exactly when the opcode byte is illegal or the instruction
has a register operand of 8 or more, and it changes only the status and the record; the cause is the first that applies, and
no address is ever out of range (R52, R68, R99 to R101 and the decisions D4, D7, D8, D18). -/
def Obligations.FaultsUnderWrapAreExactAndPrecise : Prop :=
  ∀ s t : State, s.status = .running → s.config.addrMode = .wrap → step s = .next t →
    (t.status = .faulted ↔
      Opcode.ofByte? (s.mem.read s.pc) = none ∨
        ∃ (i : Instr) (rest : List Byte),
          decode [s.mem.read s.pc, s.mem.read (s.pc + 1), s.mem.read (s.pc + 2)] = .ok (i, rest) ∧
            i.wellFormed s.config.cmpMode = false) ∧
    (t.status = .faulted →
      t = s.takeFault (if Opcode.ofByte? (s.mem.read s.pc) = none then .unknownInstruction else .invalidRegister) s.pc)

/-- Under either `ADDR_MODE` a running step that faults records its own address, and unless the fault is the advance's
(`AddressOutOfRange` under `ADDR_MODE = fault`) it changes nothing but the status and the record (R68, R100; D18, D34). -/
def Obligations.FaultsRecordTheInstructionAddress : Prop :=
  ∀ s t : State, s.status = .running → step s = .next t → t.status = .faulted →
    ∃ cause : Cause, t.fault = some { cause := cause, address := s.pc } ∧
      (cause ≠ .addressOutOfRange → t = s.takeFault cause s.pc) ∧
      (cause = .addressOutOfRange → s.config.addrMode = .fault)

/-! ### Load and output -/

/-- R72: LDI's encoding; its result and its pc, the advance in memory or wrapping, as an instruction and as a step; the fault of a register operand of 8 or
more; and under `ADDR_MODE = fault` the advance's fault at 253 and the operand fetch's from 254. -/
def Obligations.LdiLoadsItsImmediate : Prop :=
  (∀ b v : Byte, encode (.ldi b v) = [0x82, b, v]) ∧
  (∀ (s : State) (r : Reg) (v : Byte), AddrFits s.config.addrMode s.pc 3 →
    exec (.ldi r.toByte v) s = .next { s with regs := s.regs.set r v, pc := s.pc + 3 }) ∧
  (∀ (s : State) (r : Reg), s.status = .running → s.mem.read s.pc = 0x82 → s.mem.read (s.pc + 1) = r.toByte →
    AddrFits s.config.addrMode s.pc 3 →
    step s = .next { s with regs := s.regs.set r (s.mem.read (s.pc + 2)), pc := s.pc + 3 }) ∧
  (∀ (s : State) (b v : Byte), 8 ≤ b.toNat → exec (.ldi b v) s = .next (s.takeFault .invalidRegister s.pc)) ∧
  (∀ (s : State) (r : Reg) (v : Byte), s.config.addrMode = .fault → s.pc = 253 →
    exec (.ldi r.toByte v) s =
      .next { s with regs := s.regs.set r v, status := .faulted,
                     fault := some { cause := .addressOutOfRange, address := s.pc } }) ∧
  OperandFetchFaultsFrom 0x82 254

/-- R73: PRN's encoding; the byte it appends to the output port and its pc, as an instruction and as a step; its faults. -/
def Obligations.PrnOutputsARegister : Prop :=
  (∀ b : Byte, encode (.prn b) = [0x47, b]) ∧
  (∀ (s : State) (r : Reg), AddrFits s.config.addrMode s.pc 2 →
    exec (.prn r.toByte) s = .next { s with out := s.out ++ [s.regs.get r], pc := s.pc + 2 }) ∧
  (∀ (s : State) (r : Reg), s.status = .running → s.mem.read s.pc = 0x47 → s.mem.read (s.pc + 1) = r.toByte →
    AddrFits s.config.addrMode s.pc 2 →
    step s = .next { s with out := s.out ++ [s.regs.get r], pc := s.pc + 2 }) ∧
  (∀ (s : State) (b : Byte), 8 ≤ b.toNat → exec (.prn b) s = .next (s.takeFault .invalidRegister s.pc)) ∧
  (∀ (s : State) (r : Reg), s.config.addrMode = .fault → s.pc = 254 →
    exec (.prn r.toByte) s =
      .next { s with out := s.out ++ [s.regs.get r], status := .faulted,
                     fault := some { cause := .addressOutOfRange, address := s.pc } }) ∧
  OperandFetchFaultsFrom 0x47 255

/-! ### The ALU -/

/-- R75: the ALU's ADD, in exact arithmetic: the first register takes the sum modulo 256, and nothing else changes, FL and
the other registers among it. -/
def Obligations.AluAddIsModulo256 : Prop :=
  ∀ (s : State) (a b : Reg),
    ((s.aluAdd a b).getReg a).toNat = ((s.getReg a).toNat + (s.getReg b).toNat) % 256 ∧
    (∀ r : Reg, r ≠ a → (s.aluAdd a b).getReg r = s.getReg r) ∧
    s.aluAdd a b = { s with regs := (s.aluAdd a b).regs }

/-- R76: the ALU's MULTIPLY: the low 8 bits of the full product, and nothing else changes. -/
def Obligations.AluMultiplyKeepsTheLowByte : Prop :=
  ∀ (s : State) (a b : Reg),
    ((s.aluMultiply a b).getReg a).toNat = ((s.getReg a).toNat * (s.getReg b).toNat) % 256 ∧
    (∀ r : Reg, r ≠ a → (s.aluMultiply a b).getReg r = s.getReg r) ∧
    s.aluMultiply a b = { s with regs := (s.aluMultiply a b).regs }

/-- The ALU's COMPARE (R77): unsigned; exactly one of G, L, E; nothing but FL changes. Bits 7 to 3 at 0 is the spec's
decision D11. -/
def Obligations.AluCompareSetsOneFlag : Prop :=
  ∀ (s : State) (a b : Reg),
    let t := s.aluCompare a b
    (t.flagG = true ↔ (s.getReg a).toNat > (s.getReg b).toNat) ∧
    (t.flagL = true ↔ (s.getReg a).toNat < (s.getReg b).toNat) ∧
    (t.flagE = true ↔ (s.getReg a).toNat = (s.getReg b).toNat) ∧
    (t.fl >>> 3) = 0 ∧ t = { s with fl := t.fl }

/-- ADD (R79, the spec's decision D2): x[r1] takes the sum modulo 256, pc advances by 3, all else stays; and its faults. -/
def Obligations.AddAddsRegisters : Prop :=
  (∀ b c : Byte, encode (.add b c) = [0xA0, b, c]) ∧
  (∀ (s : State) (a b : Reg), AddrFits s.config.addrMode s.pc 3 →
    exec (.add a.toByte b.toByte) s =
      .next { s with regs := s.regs.set a (BitVec.ofNat 8 ((s.regs.get a).toNat + (s.regs.get b).toNat)), pc := s.pc + 3 }) ∧
  (∀ (s : State) (b c : Byte), 8 ≤ b.toNat ∨ 8 ≤ c.toNat →
    exec (.add b c) s = .next (s.takeFault .invalidRegister s.pc)) ∧
  (∀ (s : State) (a b : Reg), s.config.addrMode = .fault → s.pc = 253 →
    exec (.add a.toByte b.toByte) s =
      .next { s with regs := s.regs.set a (BitVec.ofNat 8 ((s.regs.get a).toNat + (s.regs.get b).toNat)),
                     status := .faulted, fault := some { cause := .addressOutOfRange, address := s.pc } }) ∧
  OperandFetchFaultsFrom 0xA0 254

/-- MUL (R80, the spec's decision D2): x[r1] takes the low byte of the product, pc advances by 3, all else stays; and its
faults. -/
def Obligations.MulMultipliesRegisters : Prop :=
  (∀ b c : Byte, encode (.mul b c) = [0xA2, b, c]) ∧
  (∀ (s : State) (a b : Reg), AddrFits s.config.addrMode s.pc 3 →
    exec (.mul a.toByte b.toByte) s =
      .next { s with regs := s.regs.set a (BitVec.ofNat 8 ((s.regs.get a).toNat * (s.regs.get b).toNat)), pc := s.pc + 3 }) ∧
  (∀ (s : State) (b c : Byte), 8 ≤ b.toNat ∨ 8 ≤ c.toNat →
    exec (.mul b c) s = .next (s.takeFault .invalidRegister s.pc)) ∧
  (∀ (s : State) (a b : Reg), s.config.addrMode = .fault → s.pc = 253 →
    exec (.mul a.toByte b.toByte) s =
      .next { s with regs := s.regs.set a (BitVec.ofNat 8 ((s.regs.get a).toNat * (s.regs.get b).toNat)),
                     status := .faulted, fault := some { cause := .addressOutOfRange, address := s.pc } }) ∧
  OperandFetchFaultsFrom 0xA2 254

/-- CMP under the normative `CMP_MODE = compare` (R81, the spec's decision D1): FL is 0x04, 0x02 or 0x01 by the unsigned
comparison, pc advances by 3, all else stays; and its faults. -/
def Obligations.CmpComparesRegisters : Prop :=
  (∀ b c : Byte, encode (.cmp b c) = [0xA7, b, c]) ∧
  (∀ (s : State) (a b : Reg), s.config.cmpMode = .compare → AddrFits s.config.addrMode s.pc 3 →
    exec (.cmp a.toByte b.toByte) s =
      .next { s with
        fl := if (s.regs.get a).toNat > (s.regs.get b).toNat then 0x04
              else if (s.regs.get a).toNat < (s.regs.get b).toNat then 0x02 else 0x01
        pc := s.pc + 3 }) ∧
  (∀ (s : State) (b c : Byte), s.config.cmpMode = .compare → 8 ≤ b.toNat ∨ 8 ≤ c.toNat →
    exec (.cmp b c) s = .next (s.takeFault .invalidRegister s.pc)) ∧
  (∀ (s : State) (a b : Reg), s.config.cmpMode = .compare → s.config.addrMode = .fault → s.pc = 253 →
    exec (.cmp a.toByte b.toByte) s =
      .next { s with
        fl := if (s.regs.get a).toNat > (s.regs.get b).toNat then 0x04
              else if (s.regs.get a).toNat < (s.regs.get b).toNat then 0x02 else 0x01
        status := .faulted
        fault := some { cause := .addressOutOfRange, address := s.pc } }) ∧
  OperandFetchFaultsFrom 0xA7 254

/-- CMP under the alternative `CMP_MODE = jump_bug` (R82, the spec's decisions D1 and D28): pc is x[r1] plus 3, the second
operand byte is ignored, FL and all else stay; and its faults. -/
def Obligations.CmpUnderJumpBugJumps : Prop :=
  (∀ (s : State) (a : Reg) (c : Byte), s.config.cmpMode = .jumpBug → AddrFits s.config.addrMode (s.regs.get a) 3 →
    exec (.cmp a.toByte c) s = .next { s with pc := s.regs.get a + 3 }) ∧
  (∀ (s : State) (b c : Byte), s.config.cmpMode = .jumpBug → 8 ≤ b.toNat →
    exec (.cmp b c) s = .next (s.takeFault .invalidRegister s.pc)) ∧
  (∀ (s : State) (a : Reg) (c : Byte), s.config.cmpMode = .jumpBug → s.config.addrMode = .fault →
    253 ≤ (s.regs.get a).toNat →
    exec (.cmp a.toByte c) s =
      .next { s with pc := s.regs.get a, status := .faulted,
                     fault := some { cause := .addressOutOfRange, address := s.pc } })

/-! ### The stack -/

/-- R83 and R84: a push decrements SP and then writes at the new SP; a pop reads at SP and then increments it. Nothing else
changes. -/
def Obligations.StackPrimitivesMoveSpAndOneByte : Prop :=
  (∀ (s : State) (v : Byte),
    let t := s.pushWith fun _ => v
    t = { s with regs := s.regs.set .r7 (s.regs.get .r7 - 1), mem := s.mem.write (s.regs.get .r7 - 1) v } ∧
    ∀ a : Addr, t.mem.read a = if a = s.regs.get .r7 - 1 then v else s.mem.read a) ∧
  (∀ s : State, s.top = s.mem.read (s.regs.get .r7) ∧
    s.dropTop = { s with regs := s.regs.set .r7 (s.regs.get .r7 + 1) })

/-- PUSH (R86, the spec's decision D22 for R7): SP is decremented modulo 256, x[r1], read after the decrement, is written at
the new SP, pc advances by 2; and its faults. -/
def Obligations.PushStoresARegister : Prop :=
  (∀ b : Byte, encode (.push b) = [0x45, b]) ∧
  (∀ (s : State) (r : Reg), AddrFits s.config.addrMode s.pc 2 →
    exec (.push r.toByte) s =
      .next { s with regs := s.regs.set .r7 (s.regs.get .r7 - 1), pc := s.pc + 2,
                     mem := s.mem.write (s.regs.get .r7 - 1) (if r = .r7 then s.regs.get .r7 - 1 else s.regs.get r) }) ∧
  (∀ (s : State) (b : Byte), 8 ≤ b.toNat → exec (.push b) s = .next (s.takeFault .invalidRegister s.pc)) ∧
  (∀ (s : State) (r : Reg), s.config.addrMode = .fault → s.pc = 254 →
    exec (.push r.toByte) s =
      .next { s with regs := s.regs.set .r7 (s.regs.get .r7 - 1),
                     mem := s.mem.write (s.regs.get .r7 - 1) (if r = .r7 then s.regs.get .r7 - 1 else s.regs.get r),
                     status := .faulted, fault := some { cause := .addressOutOfRange, address := s.pc } }) ∧
  OperandFetchFaultsFrom 0x45 255

/-- POP (R87, the spec's decision D22 for R7): x[r1] takes the byte at SP, then x[7] is incremented modulo 256, so that POP R7
ends at the popped byte plus 1; pc advances by 2; memory stays; and its faults. -/
def Obligations.PopLoadsARegister : Prop :=
  (∀ b : Byte, encode (.pop b) = [0x46, b]) ∧
  (∀ (s : State) (r : Reg), r ≠ .r7 → AddrFits s.config.addrMode s.pc 2 →
    exec (.pop r.toByte) s =
      .next { s with regs := (s.regs.set r (s.mem.read (s.regs.get .r7))).set .r7 (s.regs.get .r7 + 1), pc := s.pc + 2 }) ∧
  (∀ s : State, AddrFits s.config.addrMode s.pc 2 →
    exec (.pop Reg.r7.toByte) s =
      .next { s with regs := s.regs.set .r7 (s.mem.read (s.regs.get .r7) + 1), pc := s.pc + 2 }) ∧
  (∀ (s : State) (b : Byte), 8 ≤ b.toNat → exec (.pop b) s = .next (s.takeFault .invalidRegister s.pc)) ∧
  (∀ (s : State) (r : Reg), r ≠ .r7 → s.config.addrMode = .fault → s.pc = 254 →
    exec (.pop r.toByte) s =
      .next { s with regs := (s.regs.set r (s.mem.read (s.regs.get .r7))).set .r7 (s.regs.get .r7 + 1),
                     status := .faulted, fault := some { cause := .addressOutOfRange, address := s.pc } }) ∧
  (∀ s : State, s.config.addrMode = .fault → s.pc = 254 →
    exec (.pop Reg.r7.toByte) s =
      .next { s with regs := s.regs.set .r7 (s.mem.read (s.regs.get .r7) + 1),
                     status := .faulted, fault := some { cause := .addressOutOfRange, address := s.pc } }) ∧
  OperandFetchFaultsFrom 0x46 255

/-! ### Control transfer -/

/-- CALL (R88, the spec's decisions D21 and D4): the return address pc + 2 is pushed, then pc becomes x[r1], read after the
push; no advance; and its faults, the return address past 255 faulting before any write. -/
def Obligations.CallPushesTheReturnAddress : Prop :=
  (∀ b : Byte, encode (.call b) = [0x50, b]) ∧
  (∀ (s : State) (r : Reg), AddrFits s.config.addrMode s.pc 2 →
    exec (.call r.toByte) s =
      .next { s with regs := s.regs.set .r7 (s.regs.get .r7 - 1), mem := s.mem.write (s.regs.get .r7 - 1) (s.pc + 2),
                     pc := if r = .r7 then s.regs.get .r7 - 1 else s.regs.get r }) ∧
  (∀ (s : State) (b : Byte), 8 ≤ b.toNat → exec (.call b) s = .next (s.takeFault .invalidRegister s.pc)) ∧
  (∀ (s : State) (r : Reg), s.config.addrMode = .fault → 254 ≤ s.pc.toNat →
    exec (.call r.toByte) s = .next (s.takeFault .addressOutOfRange s.pc)) ∧
  OperandFetchFaultsFrom 0x50 255

/-- R89: RET's encoding; pc becomes the byte at SP, SP is incremented modulo 256, no advance, and no fault in either
`ADDR_MODE`, whatever SP is. -/
def Obligations.RetPopsThePc : Prop :=
  encode .ret = [0x11] ∧
  (∀ s : State, exec .ret s =
    .next { s with regs := s.regs.set .r7 (s.regs.get .r7 + 1), pc := s.mem.read (s.regs.get .r7) }) ∧
  (∀ s : State, s.status = .running → s.mem.read s.pc = 0x11 → step s = exec .ret s)

/-- JMP (R90; which opcodes the engine advances is the spec's decision D3): under the normative `PC_OWNER_SET` pc is x[r1]
plus 2, under the alternative x[r1]; all else stays; and its faults. -/
def Obligations.JmpJumpsThroughARegister : Prop :=
  (∀ b : Byte, encode (.jmp b) = [0x54, b]) ∧
  (∀ (s : State) (r : Reg), s.config.pcOwnerSet = .callRet → AddrFits s.config.addrMode (s.regs.get r) 2 →
    exec (.jmp r.toByte) s = .next { s with pc := s.regs.get r + 2 }) ∧
  (∀ (s : State) (r : Reg), s.config.pcOwnerSet = .callRetJumps →
    exec (.jmp r.toByte) s = .next { s with pc := s.regs.get r }) ∧
  (∀ (s : State) (b : Byte), 8 ≤ b.toNat → exec (.jmp b) s = .next (s.takeFault .invalidRegister s.pc)) ∧
  (∀ (s : State) (r : Reg), s.config.pcOwnerSet = .callRet → s.config.addrMode = .fault → 254 ≤ (s.regs.get r).toNat →
    exec (.jmp r.toByte) s =
      .next { s with pc := s.regs.get r, status := .faulted,
                     fault := some { cause := .addressOutOfRange, address := s.pc } }) ∧
  OperandFetchFaultsFrom 0x54 255

/-- JEQ (R91, the spec's decision D3): taken exactly when FL.E is 1, then as JMP; not taken, pc + 2; bits 1 to 7 of FL are
ignored; the register is checked whether or not the jump is taken; and its faults. That a JEQ
taken to 254 or more, or not taken at 254, faults under `ADDR_MODE = fault` with the normative `PC_OWNER_SET` only, and goes
on with the alternative one, is the model's reading (log 3). -/
def Obligations.JeqJumpsIfEqual : Prop :=
  (∀ b : Byte, encode (.jeq b) = [0x55, b]) ∧ ConditionalJumpFollowsItsRule .jeq (fun s => s.fl.getLsbD 0) ∧
  OperandFetchFaultsFrom 0x55 255

/-- JNE (R92, the spec's decision D3): taken exactly when FL.E is 0, then as JMP; not taken, pc + 2; and its faults, with the
same reading of the two open corners (log 3). -/
def Obligations.JneJumpsIfNotEqual : Prop :=
  (∀ b : Byte, encode (.jne b) = [0x56, b]) ∧ ConditionalJumpFollowsItsRule .jne (fun s => !s.fl.getLsbD 0) ∧
  OperandFetchFaultsFrom 0x56 255

/-- R93: HLT's encoding; the status becomes `halted`, the pc keeps the address of the HLT, and nothing else changes; it never
faults in either `ADDR_MODE`; no later step changes anything; and a running step halts at an HLT only. -/
def Obligations.HltHaltsInPlace : Prop :=
  encode .hlt = [0x01] ∧
  (∀ s : State, exec .hlt s = .next { s with status := .halted }) ∧
  (∀ s : State, s.status = .running → s.mem.read s.pc = 0x01 →
    ∀ n : Nat, Host.Core.run Sys2Proof.core (n + 1) s = .next { s with status := .halted }) ∧
  (∀ s t : State, s.status = .running → step s = .next t → t.status = .halted → s.mem.read s.pc = 0x01)

/-! ### Frames -/

/-- What LDI, ADD and MUL leave unchanged (R12, R15, R34): every register but the one their first operand byte names, FL, the
output port, the parameters and every byte of memory; status and fault record but for a fault of their own. R12 is the spec's
own summary and R15 is D12. -/
def Obligations.LdiAddMulFrame : Prop :=
  ∀ (s t : State) (b c : Byte),
    (exec (.ldi b c) s = .next t ∨ exec (.add b c) s = .next t ∨ exec (.mul b c) s = .next t) →
    (∀ r : Reg, r.toByte ≠ b → t.getReg r = s.getReg r) ∧ t.fl = s.fl ∧ t.out = s.out ∧ t.config = s.config ∧
      SameMemory s t ∧ SameStatusOrFaulted s t

/-- What PRN, CMP, JMP, JEQ, JNE and HLT leave unchanged: every register, every byte of memory and the parameters; FL but for
CMP under `CMP_MODE = compare`; the output port but for PRN; status and fault record but for HLT's `halted` and a fault of
their own. R12 is the spec's own summary and R15 is D12. -/
def Obligations.InstructionsThatWriteNoRegisterFrame : Prop :=
  ∀ (s t : State) (i : Instr),
    ((∃ b, i = .prn b) ∨ (∃ b c, i = .cmp b c) ∨ (∃ b, i = .jmp b) ∨ (∃ b, i = .jeq b) ∨ (∃ b, i = .jne b) ∨ i = .hlt) →
    exec i s = .next t →
    t.regs = s.regs ∧ SameMemory s t ∧ t.config = s.config ∧
      ((¬ ∃ b c, i = .cmp b c) ∨ s.config.cmpMode = .jumpBug → t.fl = s.fl) ∧
      ((¬ ∃ b, i = .prn b) → t.out = s.out) ∧
      (i ≠ .hlt → SameStatusOrFaulted s t) ∧ (i = .hlt → t.fault = s.fault ∧ t.pc = s.pc)

/-- What PUSH and CALL leave unchanged: every register but R7, FL, the output port, the parameters, and every byte of memory
but the one at the decremented SP; status and fault record but for a fault of their own. R12 is the spec's own summary and
R15 is D12. -/
def Obligations.PushCallFrame : Prop :=
  ∀ (s t : State) (b : Byte), (exec (.push b) s = .next t ∨ exec (.call b) s = .next t) →
    (∀ r : Reg, r ≠ .r7 → t.getReg r = s.getReg r) ∧ t.fl = s.fl ∧ t.out = s.out ∧ t.config = s.config ∧
      (∀ a : Addr, a ≠ s.getReg .r7 - 1 → t.mem.read a = s.mem.read a) ∧ SameStatusOrFaulted s t

/-- What POP and RET leave unchanged: every register but R7 and, for POP, the one its operand byte names; FL, the output
port, the parameters and every byte of memory; status and fault record but for a fault of POP's own. R12 is the spec's own
summary and R15 is D12. -/
def Obligations.PopRetFrame : Prop :=
  (∀ (s t : State) (b : Byte), exec (.pop b) s = .next t →
    (∀ r : Reg, r ≠ .r7 → r.toByte ≠ b → t.getReg r = s.getReg r) ∧ t.fl = s.fl ∧ t.out = s.out ∧ t.config = s.config ∧
      SameMemory s t ∧ SameStatusOrFaulted s t) ∧
  (∀ s t : State, exec .ret s = .next t →
    (∀ r : Reg, r ≠ .r7 → t.getReg r = s.getReg r) ∧ t.fl = s.fl ∧ t.out = s.out ∧ t.config = s.config ∧
      SameMemory s t ∧ t.status = s.status ∧ t.fault = s.fault)

/-! ### The whole machine -/

/-- The invariant holds at reset, and in every state a load interface starts the engine in. Its clause on memory is the
model's canonical form (log 5, DESIGN CHOICE), no rule of the spec; FL at 0 is D13, and the fault record is D18. -/
def Obligations.ResetStatesAreLegal : Prop :=
  State.reset.Inv ∧ ∀ (config : Config) (image : List Nat) (s : State), powerOn config image = some s → s.Inv

/-- Every step keeps the invariant: memory stays in its canonical form (the model's choice, log 5), FL holds at most one of
G, L, E and 0 in bits 7 to 3 (D11, D12), and there is a fault record exactly while the status is `faulted` (D18). -/
def Obligations.EveryStepKeepsTheInvariant : Prop :=
  ∀ s t : State, s.Inv → step s = .next t → t.Inv

/-- No step changes the configuration parameters (R6; log 1). -/
def Obligations.NoStepChangesTheParameters : Prop :=
  ∀ s t : State, step s = .next t → t.config = s.config

/-- FL changes only by a CMP under `CMP_MODE = compare`, which leaves one of its three values (R15; "unchanged" by all else is
the spec's decision D12). -/
def Obligations.FlagsChangeOnlyByCmp : Prop :=
  ∀ s t : State, step s = .next t → t.fl ≠ s.fl →
    s.status = .running ∧ s.mem.read s.pc = 0xA7 ∧ s.config.cmpMode = .compare ∧ (t.fl = 0x01 ∨ t.fl = 0x02 ∨ t.fl = 0x04)

/-- R16: FL is read by JEQ and JNE, which test bit 0 only. Give any state another FL, with the same bit 0 where the opcode at
pc is JEQ's or JNE's: the step does the same, and FL is afterwards the one given or the one a CMP writes. -/
def Obligations.OnlyBitZeroOfFlagsIsRead : Prop :=
  ∀ (s t : State) (f : Byte), step s = .next t →
    (s.mem.read s.pc = 0x55 ∨ s.mem.read s.pc = 0x56 → f.getLsbD 0 = s.fl.getLsbD 0) →
    ∃ g : Byte, step { s with fl := f } = .next { t with fl := g } ∧ (g = f ∨ (g = t.fl ∧ s.mem.read s.pc = 0xA7))

/-- The output port changes only by a PRN, which appends the byte of the register it names (R19, the spec's decision D19). -/
def Obligations.OutputGrowsOnlyByPrn : Prop :=
  ∀ s t : State, step s = .next t → t.out ≠ s.out →
    s.status = .running ∧ s.mem.read s.pc = 0x47 ∧
      ∃ r : Reg, s.mem.read (s.pc + 1) = r.toByte ∧ t.out = s.out ++ [s.getReg r]

/-- Nothing in the block reads the output port (R19, the spec's decision D19): bytes put before those it holds change no step
but for standing there afterwards. -/
def Obligations.NothingReadsTheOutputPort : Prop :=
  ∀ (s t : State) (earlier : List Byte), step s = .next t →
    step { s with out := earlier ++ s.out } = .next { t with out := earlier ++ t.out }

/-- R34, the accesses that reach memory and no others. Writes: a byte changes only by PUSH or CALL, at the decremented SP.
Reads: a step whose memory differs from that of `s`, but not in the opcode byte, in the operand bytes a legal opcode has, or,
for POP and RET, in the byte at SP, does to every other field what the step of `s` does, and makes the same write. -/
def Obligations.MemoryAccessesAreTheListedOnes : Prop :=
  (∀ (s t : State) (a : Addr), step s = .next t → t.mem.read a ≠ s.mem.read a →
    s.status = .running ∧ (s.mem.read s.pc = 0x45 ∨ s.mem.read s.pc = 0x50) ∧ a = s.getReg .r7 - 1) ∧
  (∀ (s t : State) (m : Memory), step s = .next t →
    m.read s.pc = s.mem.read s.pc →
    ((Opcode.ofByte? (s.mem.read s.pc)).isSome = true → 1 ≤ operandCount (s.mem.read s.pc) →
      m.read (s.pc + 1) = s.mem.read (s.pc + 1)) →
    ((Opcode.ofByte? (s.mem.read s.pc)).isSome = true → operandCount (s.mem.read s.pc) = 2 →
      m.read (s.pc + 2) = s.mem.read (s.pc + 2)) →
    (s.mem.read s.pc = 0x46 ∨ s.mem.read s.pc = 0x11 → m.read (s.getReg .r7) = s.mem.read (s.getReg .r7)) →
    ∃ m' : Memory, step { s with mem := m } = .next { t with mem := m' } ∧
      ((t.mem = s.mem ∧ m' = m) ∨
        ((s.mem.read s.pc = 0x45 ∨ s.mem.read s.pc = 0x50) ∧
          ∃ v : Byte, t.mem = s.mem.write (s.getReg .r7 - 1) v ∧ m' = m.write (s.getReg .r7 - 1) v)))

/-- Only CALL, RET, JMP, JEQ, JNE, and CMP under `jump_bug`, leave the sequence: after any other instruction but HLT pc is the
next instruction's address, unless the step faults (R13, R67; the addition modulo 256 is D4). -/
def Obligations.OnlyTransfersLeaveTheSequence : Prop :=
  ∀ s t : State, s.status = .running → step s = .next t → t.status ≠ .faulted →
    s.mem.read s.pc ∉ ([0x50, 0x11, 0x54, 0x55, 0x56, 0x01] : List Byte) →
    (s.mem.read s.pc = 0xA7 → s.config.cmpMode = .compare) →
    t.pc = s.pc + BitVec.ofNat 8 (1 + operandCount (s.mem.read s.pc))

/-- A PUSH and then a POP, neither of R7, carry a register's value to another and leave SP as it was (R86, R87; that this holds
for registers other than 7 is the spec's own inference). -/
def Obligations.PushThenPopCarriesTheValue : Prop :=
  ∀ (s : State) (a b : Reg), a ≠ .r7 → b ≠ .r7 → AddrFits s.config.addrMode s.pc 4 →
    ∃ t u : State, exec (.push a.toByte) s = .next t ∧ exec (.pop b.toByte) t = .next u ∧
      u.getReg b = s.getReg a ∧ u.getReg .r7 = s.getReg .r7 ∧ u.pc = s.pc + 4

/-- A CALL, and a RET in any later state that has SP and the byte there as the CALL left them, come back to the instruction
after the CALL with SP as it was before it (R88, R89, R94; the condition is the spec's own inference in R89). -/
def Obligations.RetReturnsBehindItsCall : Prop :=
  ∀ (s : State) (r : Reg), AddrFits s.config.addrMode s.pc 2 →
    ∃ t : State, exec (.call r.toByte) s = .next t ∧
      ∀ u : State, u.getReg .r7 = t.getReg .r7 → u.mem.read (u.getReg .r7) = t.mem.read (t.getReg .r7) →
        ∃ v : State, exec .ret u = .next v ∧ v.pc = s.pc + 2 ∧ v.getReg .r7 = s.getReg .r7

/-- Two memories in the canonical form that read alike at every address are the same list, so equal memories are equal data
(the form is the model's, log 5). -/
def Obligations.MemoriesThatReadAlikeAreEqual : Prop :=
  ∀ m m' : Memory, m.wf = true → m'.wf = true → (∀ a : Addr, m.read a = m'.read a) → m = m'

/-- A fetch sees every earlier write (R44, the spec's decisions D9 and D25): after a PUSH the next step runs the instruction
that memory then holds at pc, the pushed byte among its bytes. -/
def Obligations.FetchSeesThePushedByte : Prop :=
  ∀ (s : State) (a : Reg) (i : Instr) (rest : List Byte), s.status = .running → s.config.addrMode = .wrap →
    s.mem.read s.pc = 0x45 → s.mem.read (s.pc + 1) = a.toByte →
    ∃ t : State, step s = .next t ∧
      (decode ([s.pc + 2, s.pc + 3, s.pc + 4].map fun p =>
          if p = s.getReg .r7 - 1 then (if a = .r7 then s.getReg .r7 - 1 else s.getReg a) else s.mem.read p) = .ok (i, rest) →
        step t = exec i t)
end

