-- ==== Sys2Proof/Laws/Decode.lean ====
section
/-! SUPPORT. The opcode map: the small lemmas of the decoder's table. -/

namespace Sys2Proof

/-- No two rows of the opcode map share an opcode byte. -/
theorem opcode_codes_distinct : (Opcode.all.map Opcode.code).Pairwise (· ≠ ·) := by decide

theorem Opcode.mem_all (o : Opcode) : o ∈ Opcode.all := by
  cases o <;> decide

@[simp] theorem Opcode.ofByte?_code (o : Opcode) : Opcode.ofByte? o.code = some o := by
  cases o <;> rfl

/-- An opcode byte selects a row exactly when all 8 bits are that row's (30_encoding.md R51). -/
theorem Opcode.ofByte?_eq_some {b : Byte} {o : Opcode} : Opcode.ofByte? b = some o ↔ b = o.code := by
  constructor
  · intro h
    have := List.find?_some h
    exact (eq_of_beq this).symm
  · rintro rfl
    exact Opcode.ofByte?_code o

/-- A byte is illegal exactly when it is no row's opcode (30_encoding.md R52). -/
theorem Opcode.ofByte?_eq_none {b : Byte} : Opcode.ofByte? b = none ↔ ∀ o : Opcode, b ≠ o.code := by
  constructor
  · rintro h o rfl
    simp at h
  · intro h
    cases hb : Opcode.ofByte? b with
    | none => rfl
    | some o => exact absurd (Opcode.ofByte?_eq_some.mp hb) (h o)

/-- The two high bits of a row's opcode count its operand bytes (30_encoding.md R46, R50). -/
theorem operandCount_code (o : Opcode) :
    operandCount o.code = match o.format with
      | .f0 => 0
      | .f1r => 1
      | .f2ri => 2
      | .f2rr => 2 := by
  cases o <;> rfl

/-- What decoding can answer. -/
theorem decode_cons (op : Byte) (rest : List Byte) :
    decode (op :: rest) =
      match Opcode.ofByte? op with
      | none => .error (.unknownOpcode op)
      | some o =>
        match takeOperands (operandCount op) rest with
        | none => .error .truncated
        | some (op1, op2, rest') => .ok (o.withOperands op1 op2, rest') := rfl

end Sys2Proof
end

