-- ==== Sys2Proof/Laws/Memory.lean ====
section
/-! SUPPORT. Memory: a read after a write, and the canonical form, which every memory operation keeps. -/

namespace Sys2Proof.Machine

theorem Memory.lookup_insertCell (a : Nat) (v : Byte) (m : Memory) (b : Nat)
    (ha : ∀ c ∈ m, c.1 ≠ a) :
    (Memory.insertCell a v m).lookup b = if a = b then v else m.lookup b := by
  induction m with
  | nil => rfl
  | cons c rest ih =>
    obtain ⟨k, w⟩ := c
    have hk : k ≠ a := ha (k, w) (by simp)
    have := ih fun c hc => ha c (by simp [hc])
    by_cases hlt : a < k
    · simp [Memory.insertCell, hlt, Memory.lookup]
    · simp only [Memory.insertCell, hlt, if_false, Memory.lookup, this]
      by_cases hkb : k = b
      · simp [hkb, show a ≠ b from fun h => hk (hkb.trans h.symm)]
      · simp [hkb]

theorem Memory.lookup_of_not_listed (m : Memory) (a : Nat) (h : ∀ c ∈ m, c.1 ≠ a) : m.lookup a = Memory.unlisted := by
  induction m with
  | nil => rfl
  | cons c rest ih =>
    simp [Memory.lookup, h c (by simp), ih fun d hd => h d (by simp [hd])]

theorem Memory.lookup_filter (m : Memory) (a b : Nat) :
    Memory.lookup (m.filter fun c => c.1 != a) b = if b = a then Memory.unlisted else m.lookup b := by
  induction m with
  | nil => simp [Memory.lookup]
  | cons c rest ih =>
    obtain ⟨k, w⟩ := c
    by_cases hk : k = a
    · subst hk
      by_cases hb : b = k
      · simp [hb] at ih ⊢; exact ih
      · simp [hb, Memory.lookup, Ne.symm hb] at ih ⊢; exact ih
    · by_cases hb : b = a
      · subst hb; simp [hk, Memory.lookup] at ih ⊢; exact ih
      · simp [hk, hb, Memory.lookup] at ih ⊢; rw [ih]

/-- A read after a write to the same address gives the value written, and a write leaves every other address alone
(20_memory.md R32, R38). No premise: it holds of a memory in any form. -/
theorem Memory.read_write (m : Memory) (a b : Addr) (v : Byte) :
    (m.write a v).read b = if b = a then v else m.read b := by
  have key : (b.toNat = a.toNat) = (b = a) := by simp [BitVec.toNat_inj]
  unfold Memory.read Memory.write
  split
  · rename_i hv
    rw [Memory.lookup_filter]
    simp only [key, hv]
  · rw [Memory.lookup_insertCell, Memory.lookup_filter]
    · simp only [eq_comm (a := a.toNat), key]
      split <;> simp_all
    · intro c hc
      simpa using (List.mem_filter.mp hc).2

@[simp] theorem Memory.read_write_self (m : Memory) (a : Addr) (v : Byte) : (m.write a v).read a = v := by
  simp [Memory.read_write]

theorem Memory.read_write_of_ne (m : Memory) {a b : Addr} (v : Byte) (h : b ≠ a) : (m.write a v).read b = m.read b := by
  simp [Memory.read_write, h]

/-! ### The canonical form -/

theorem Memory.wf_cons (a : Nat) (v : Byte) (rest : Memory) :
    Memory.wf ((a, v) :: rest) = true ↔
      a < 256 ∧ v ≠ Memory.unlisted ∧ (∀ c ∈ rest, a < c.1) ∧ Memory.wf rest = true := by
  simp [Memory.wf, and_assoc]

@[simp] theorem Memory.wf_nil : Memory.wf [] = true := rfl

theorem Memory.wf_filter (m : Memory) (a : Nat) (h : m.wf = true) : Memory.wf (m.filter fun c => c.1 != a) = true := by
  induction m with
  | nil => rfl
  | cons c rest ih =>
    obtain ⟨k, w⟩ := c
    obtain ⟨h1, h2, h3, h4⟩ := (Memory.wf_cons ..).mp h
    by_cases hk : k = a
    · simp only [List.filter_cons, hk, bne_self_eq_false, Bool.false_eq_true, if_false]
      exact ih h4
    · simp only [List.filter_cons, bne_iff_ne, ne_eq, hk, not_false_eq_true, if_true]
      exact (Memory.wf_cons ..).mpr ⟨h1, h2, fun c hc => h3 c (List.mem_filter.mp hc).1, ih h4⟩

theorem Memory.mem_insertCell (a : Nat) (v : Byte) (m : Memory) (c : Host.Cell) :
    c ∈ Memory.insertCell a v m ↔ c = (a, v) ∨ c ∈ m := by
  induction m with
  | nil => simp [Memory.insertCell]
  | cons d rest ih =>
    simp only [Memory.insertCell]
    split <;> simp_all
    tauto

theorem Memory.wf_insertCell (a : Nat) (v : Byte) (m : Memory) (h : m.wf = true) (ha : a < 256)
    (hv : v ≠ Memory.unlisted) (hm : ∀ c ∈ m, c.1 ≠ a) : Memory.wf (Memory.insertCell a v m) = true := by
  induction m with
  | nil => exact (Memory.wf_cons ..).mpr ⟨ha, hv, by simp, rfl⟩
  | cons c rest ih =>
    obtain ⟨k, w⟩ := c
    obtain ⟨h1, h2, h3, h4⟩ := (Memory.wf_cons ..).mp h
    have hk : k ≠ a := hm (k, w) (by simp)
    simp only [Memory.insertCell]
    split
    · rename_i hlt
      refine (Memory.wf_cons ..).mpr ⟨ha, hv, ?_, h⟩
      intro c hc
      rcases List.mem_cons.mp hc with rfl | hc
      · exact hlt
      · exact hlt.trans (h3 c hc)
    · refine (Memory.wf_cons ..).mpr ⟨h1, h2, ?_, ih h4 fun c hc => hm c (by simp [hc])⟩
      intro c hc
      rcases (Memory.mem_insertCell ..).mp hc with rfl | hc
      · show k < a
        omega
      · exact h3 c hc

/-- Every write keeps the canonical form. -/
theorem Memory.wf_write (m : Memory) (a : Addr) (v : Byte) (h : m.wf = true) : (m.write a v).wf = true := by
  unfold Memory.write
  split
  · exact Memory.wf_filter m _ h
  · rename_i hv
    refine Memory.wf_insertCell _ _ _ (Memory.wf_filter m _ h) a.isLt hv ?_
    intro c hc
    simpa using (List.mem_filter.mp hc).2

/-- So does a run of writes. -/
theorem Memory.wf_writeBytes (bytes : List Byte) : ∀ (m : Memory) (a : Addr), m.wf = true → (m.writeBytes a bytes).wf = true := by
  induction bytes with
  | nil => exact fun _ _ h => h
  | cons b rest ih => exact fun m a h => ih _ _ (Memory.wf_write m a b h)

/-- Memory after reset, with nothing listed, has the canonical form. -/
theorem State.reset_mem_wf : State.reset.mem.wf = true := rfl

end Sys2Proof.Machine
end

