-- ==== Sys2Proof/Laws/State.lean ====
section
/-! SUPPORT. One lemma per field per update of the state, true by rfl, so that no later proof unfolds a record update. -/

namespace Sys2Proof.Machine

variable (s : State)

/-! `setReg` -/

@[simp] theorem State.setReg_regs (r : Reg) (v : Byte) : (s.setReg r v).regs = s.regs.set r v := rfl
@[simp] theorem State.setReg_pc (r : Reg) (v : Byte) : (s.setReg r v).pc = s.pc := rfl
@[simp] theorem State.setReg_fl (r : Reg) (v : Byte) : (s.setReg r v).fl = s.fl := rfl
@[simp] theorem State.setReg_status (r : Reg) (v : Byte) : (s.setReg r v).status = s.status := rfl
@[simp] theorem State.setReg_fault (r : Reg) (v : Byte) : (s.setReg r v).fault = s.fault := rfl
@[simp] theorem State.setReg_out (r : Reg) (v : Byte) : (s.setReg r v).out = s.out := rfl
@[simp] theorem State.setReg_mem (r : Reg) (v : Byte) : (s.setReg r v).mem = s.mem := rfl
@[simp] theorem State.setReg_config (r : Reg) (v : Byte) : (s.setReg r v).config = s.config := rfl

/-! `setPc` -/

@[simp] theorem State.setPc_regs (target : Addr) : (s.setPc target).regs = s.regs := rfl
@[simp] theorem State.setPc_pc (target : Addr) : (s.setPc target).pc = target := rfl
@[simp] theorem State.setPc_fl (target : Addr) : (s.setPc target).fl = s.fl := rfl
@[simp] theorem State.setPc_status (target : Addr) : (s.setPc target).status = s.status := rfl
@[simp] theorem State.setPc_fault (target : Addr) : (s.setPc target).fault = s.fault := rfl
@[simp] theorem State.setPc_out (target : Addr) : (s.setPc target).out = s.out := rfl
@[simp] theorem State.setPc_mem (target : Addr) : (s.setPc target).mem = s.mem := rfl
@[simp] theorem State.setPc_config (target : Addr) : (s.setPc target).config = s.config := rfl

/-! `output` -/

@[simp] theorem State.output_regs (v : Byte) : (s.output v).regs = s.regs := rfl
@[simp] theorem State.output_pc (v : Byte) : (s.output v).pc = s.pc := rfl
@[simp] theorem State.output_fl (v : Byte) : (s.output v).fl = s.fl := rfl
@[simp] theorem State.output_status (v : Byte) : (s.output v).status = s.status := rfl
@[simp] theorem State.output_fault (v : Byte) : (s.output v).fault = s.fault := rfl
@[simp] theorem State.output_out (v : Byte) : (s.output v).out = s.out ++ [v] := rfl
@[simp] theorem State.output_mem (v : Byte) : (s.output v).mem = s.mem := rfl
@[simp] theorem State.output_config (v : Byte) : (s.output v).config = s.config := rfl

/-! `halt` -/

@[simp] theorem State.halt_regs : (s.halt).regs = s.regs := rfl
@[simp] theorem State.halt_pc : (s.halt).pc = s.pc := rfl
@[simp] theorem State.halt_fl : (s.halt).fl = s.fl := rfl
@[simp] theorem State.halt_status : (s.halt).status = .halted := rfl
@[simp] theorem State.halt_fault : (s.halt).fault = s.fault := rfl
@[simp] theorem State.halt_out : (s.halt).out = s.out := rfl
@[simp] theorem State.halt_mem : (s.halt).mem = s.mem := rfl
@[simp] theorem State.halt_config : (s.halt).config = s.config := rfl

/-! `takeFault` -/

@[simp] theorem State.takeFault_regs (c : Cause) (pc0 : Addr) : (s.takeFault c pc0).regs = s.regs := rfl
@[simp] theorem State.takeFault_pc (c : Cause) (pc0 : Addr) : (s.takeFault c pc0).pc = s.pc := rfl
@[simp] theorem State.takeFault_fl (c : Cause) (pc0 : Addr) : (s.takeFault c pc0).fl = s.fl := rfl
@[simp] theorem State.takeFault_status (c : Cause) (pc0 : Addr) : (s.takeFault c pc0).status = .faulted := rfl
@[simp] theorem State.takeFault_fault (c : Cause) (pc0 : Addr) : (s.takeFault c pc0).fault = some { cause := c, address := pc0 } := rfl
@[simp] theorem State.takeFault_out (c : Cause) (pc0 : Addr) : (s.takeFault c pc0).out = s.out := rfl
@[simp] theorem State.takeFault_mem (c : Cause) (pc0 : Addr) : (s.takeFault c pc0).mem = s.mem := rfl
@[simp] theorem State.takeFault_config (c : Cause) (pc0 : Addr) : (s.takeFault c pc0).config = s.config := rfl

/-! `aluCompare` -/

@[simp] theorem State.aluCompare_regs (a b : Reg) : (s.aluCompare a b).regs = s.regs := rfl
@[simp] theorem State.aluCompare_pc (a b : Reg) : (s.aluCompare a b).pc = s.pc := rfl
@[simp] theorem State.aluCompare_fl (a b : Reg) : (s.aluCompare a b).fl = compareFlags (s.getReg a) (s.getReg b) := rfl
@[simp] theorem State.aluCompare_status (a b : Reg) : (s.aluCompare a b).status = s.status := rfl
@[simp] theorem State.aluCompare_fault (a b : Reg) : (s.aluCompare a b).fault = s.fault := rfl
@[simp] theorem State.aluCompare_out (a b : Reg) : (s.aluCompare a b).out = s.out := rfl
@[simp] theorem State.aluCompare_mem (a b : Reg) : (s.aluCompare a b).mem = s.mem := rfl
@[simp] theorem State.aluCompare_config (a b : Reg) : (s.aluCompare a b).config = s.config := rfl

/-! `pushWith` -/

@[simp] theorem State.pushWith_regs (v : State → Byte) : (s.pushWith v).regs = s.regs.set .r7 (s.sp - 1) := rfl
@[simp] theorem State.pushWith_pc (v : State → Byte) : (s.pushWith v).pc = s.pc := rfl
@[simp] theorem State.pushWith_fl (v : State → Byte) : (s.pushWith v).fl = s.fl := rfl
@[simp] theorem State.pushWith_status (v : State → Byte) : (s.pushWith v).status = s.status := rfl
@[simp] theorem State.pushWith_fault (v : State → Byte) : (s.pushWith v).fault = s.fault := rfl
@[simp] theorem State.pushWith_out (v : State → Byte) : (s.pushWith v).out = s.out := rfl
@[simp] theorem State.pushWith_mem (v : State → Byte) : (s.pushWith v).mem = s.mem.write (s.sp - 1) (v (s.setReg .r7 (s.sp - 1))) := rfl
@[simp] theorem State.pushWith_config (v : State → Byte) : (s.pushWith v).config = s.config := rfl

/-! Updates that are a register write. -/

theorem State.dropTop_eq : s.dropTop = s.setReg .r7 (s.sp + 1) := rfl
theorem State.aluAdd_eq (a b : Reg) : s.aluAdd a b = s.setReg a (s.getReg a + s.getReg b) := rfl
theorem State.aluMultiply_eq (a b : Reg) : s.aluMultiply a b = s.setReg a (s.getReg a * s.getReg b) := rfl

end Sys2Proof.Machine
end

