-- ==== Sys2Proof/Laws/Registers.lean ====
section
/-! SUPPORT. The register file: a read after a write, and the naming of registers by operand bytes. -/

namespace Sys2Proof.Machine

/-- A register reads as the last value written to it, and a write leaves every other register alone. -/
theorem RegFile.get_set (f : RegFile) (r q : Reg) (v : Byte) :
    (f.set r v).get q = if q = r then v else f.get q := by
  cases r <;> cases q <;> rfl

@[simp] theorem RegFile.get_set_self (f : RegFile) (r : Reg) (v : Byte) : (f.set r v).get r = v := by
  simp [RegFile.get_set]

theorem RegFile.get_set_of_ne (f : RegFile) {r q : Reg} (v : Byte) (h : q ≠ r) : (f.set r v).get q = f.get q := by
  simp [RegFile.get_set, h]

theorem State.getReg_setReg (s : State) (r q : Reg) (v : Byte) :
    (s.setReg r v).getReg q = if q = r then v else s.getReg q :=
  RegFile.get_set s.regs r q v

theorem State.sp_setReg (s : State) (r : Reg) (v : Byte) :
    (s.setReg r v).sp = if r = .r7 then v else s.sp := by
  simp [State.sp, State.getReg_setReg, eq_comm]

@[simp] theorem State.getReg_setPc (s : State) (a : Addr) (q : Reg) : (s.setPc a).getReg q = s.getReg q := rfl
@[simp] theorem State.sp_setPc (s : State) (a : Addr) : (s.setPc a).sp = s.sp := rfl
@[simp] theorem State.top_setPc (s : State) (a : Addr) : (s.setPc a).top = s.top := rfl

/-- An operand byte made from a register names that register. -/
@[simp] theorem Reg.ofByte?_toByte (r : Reg) : Reg.ofByte? r.toByte = some r := by
  cases r <;> rfl

theorem Reg.toByte_lt (r : Reg) : r.toByte.toNat < 8 := by
  cases r <;> decide

/-- An operand byte names a register exactly when it is that register's index. -/
theorem Reg.ofByte?_eq_some {b : Byte} {r : Reg} : Reg.ofByte? b = some r ↔ b = r.toByte := by
  constructor
  · intro h
    unfold Reg.ofByte? at h
    split at h <;> simp only [Option.some.injEq, reduceCtorEq] at h <;> subst h <;>
      exact BitVec.eq_of_toNat_eq (by simp [*, Reg.toByte])
  · rintro rfl
    exact Reg.ofByte?_toByte r

/-- An operand byte names no register exactly when it is 8 or more (30_encoding.md R49). -/
theorem Reg.ofByte?_eq_none {b : Byte} : Reg.ofByte? b = none ↔ 8 ≤ b.toNat := by
  unfold Reg.ofByte?
  split <;> simp_all
  omega

/-- What the register check of one operand can do. -/
theorem withReg_cases (b : Byte) (s : State) (h : Reg → State) :
    (∃ r, b = r.toByte ∧ withReg b s h = h r) ∨ (8 ≤ b.toNat ∧ withReg b s h = s.takeFault .invalidRegister s.pc) := by
  unfold withReg
  cases hb : Reg.ofByte? b with
  | none => exact .inr ⟨Reg.ofByte?_eq_none.mp hb, rfl⟩
  | some r => exact .inl ⟨r, Reg.ofByte?_eq_some.mp hb, rfl⟩

@[simp] theorem withReg_toByte (r : Reg) (s : State) (h : Reg → State) : withReg r.toByte s h = h r := by
  simp [withReg]

theorem withReg_invalid {b : Byte} (hb : 8 ≤ b.toNat) (s : State) (h : Reg → State) :
    withReg b s h = s.takeFault .invalidRegister s.pc := by
  simp [withReg, Reg.ofByte?_eq_none.mpr hb]

/-- What the register check of two operands can do. -/
theorem withRegs_cases (b1 b2 : Byte) (s : State) (h : Reg → Reg → State) :
    (∃ q r, b1 = q.toByte ∧ b2 = r.toByte ∧ withRegs b1 b2 s h = h q r) ∨
      ((8 ≤ b1.toNat ∨ 8 ≤ b2.toNat) ∧ withRegs b1 b2 s h = s.takeFault .invalidRegister s.pc) := by
  unfold withRegs
  obtain ⟨q, rfl, e⟩ | ⟨hb, e⟩ := withReg_cases b1 s fun a => withReg b2 s fun b => h a b
  · obtain ⟨r, rfl, e'⟩ | ⟨hb, e'⟩ := withReg_cases b2 s fun b => h q b
    · exact .inl ⟨q, r, rfl, rfl, e.trans e'⟩
    · exact .inr ⟨.inr hb, e.trans e'⟩
  · exact .inr ⟨.inl hb, e⟩

@[simp] theorem withRegs_toByte (q r : Reg) (s : State) (h : Reg → Reg → State) :
    withRegs q.toByte r.toByte s h = h q r := by
  simp [withRegs]

theorem withRegs_invalid {b1 b2 : Byte} (hb : 8 ≤ b1.toNat ∨ 8 ≤ b2.toNat) (s : State) (h : Reg → Reg → State) :
    withRegs b1 b2 s h = s.takeFault .invalidRegister s.pc := by
  obtain ⟨q, r, rfl, rfl, -⟩ | ⟨-, e⟩ := withRegs_cases b1 b2 s h
  · have := q.toByte_lt; have := r.toByte_lt; omega
  · exact e

end Sys2Proof.Machine
end

