-- ==== Sys2Proof/Laws/Ops.lean ====
section
/-! SUPPORT. One lemma for each shared operation, saying once everything it can do. -/

namespace Sys2Proof.Machine

/-! ### Addresses and the advance -/

theorem addrPlus_of_fits {mode : AddrMode} {a : Addr} {k : Nat} (h : AddrFits mode a k) :
    addrPlus mode a k = some (a + BitVec.ofNat 8 k) := by
  cases mode with
  | wrap => rfl
  | fault =>
    have : a.toNat + k ≤ 255 := h.resolve_left (by simp)
    simp [addrPlus, this]

theorem addrPlus_of_not_fits {mode : AddrMode} {a : Addr} {k : Nat} (h : ¬ AddrFits mode a k) :
    addrPlus mode a k = none := by
  cases mode with
  | wrap => exact absurd (.inl rfl) h
  | fault =>
    have : ¬ a.toNat + k ≤ 255 := fun h' => h (.inr h')
    simp [addrPlus, this]

/-- The advance moves pc, or past 255 under `ADDR_MODE = fault` takes a fault. -/
theorem State.advance_cases (s : State) (pc0 : Addr) (k : Nat) :
    (AddrFits s.config.addrMode s.pc k ∧ s.advance pc0 k = s.setPc (s.pc + BitVec.ofNat 8 k)) ∨
      (¬ AddrFits s.config.addrMode s.pc k ∧ s.advance pc0 k = s.takeFault .addressOutOfRange pc0) := by
  by_cases h : AddrFits s.config.addrMode s.pc k
  · exact .inl ⟨h, by simp [State.advance, addrPlus_of_fits h]⟩
  · exact .inr ⟨h, by simp [State.advance, addrPlus_of_not_fits h]⟩

/-- After a handler: the pc the handler wrote stays, or the engine advances (40_cycle.md R66, R67). -/
theorem State.complete_cases (s : State) (o : Opcode) (pc0 : Addr) :
    (ownsPc s.config.pcOwnerSet o = true ∧ s.complete o pc0 = s) ∨
      (ownsPc s.config.pcOwnerSet o = false ∧ s.complete o pc0 = s.advance pc0 (instrLength o.code)) := by
  cases h : ownsPc s.config.pcOwnerSet o <;> simp [State.complete, h]

/-- What the advance and the completion of an instruction can change, in one form: pc alone, or the status and the fault
record. -/
theorem State.complete_form (s : State) (o : Opcode) (pc0 : Addr) :
    (∃ p, s.complete o pc0 = s.setPc p) ∨
      (s.config.addrMode = .fault ∧ s.complete o pc0 = s.takeFault .addressOutOfRange pc0) := by
  obtain ⟨-, e⟩ | ⟨-, e⟩ := s.complete_cases o pc0
  · exact .inl ⟨s.pc, e⟩
  · obtain ⟨-, e'⟩ | ⟨h, e'⟩ := s.advance_cases pc0 (instrLength o.code)
    · exact .inl ⟨_, e.trans e'⟩
    · refine .inr ⟨?_, e.trans e'⟩
      cases hm : s.config.addrMode with
      | wrap => exact absurd (.inl hm) h
      | fault => rfl

/-- Neither the engine's completion nor the handler of a conditional jump changes a register, FL, the output port, the memory
or the parameters. -/
@[simp] theorem State.complete_regs (s : State) (o : Opcode) (pc0 : Addr) : (s.complete o pc0).regs = s.regs := by
  obtain ⟨_, e⟩ | ⟨-, e⟩ := s.complete_form o pc0 <;> rw [e] <;> rfl
@[simp] theorem State.complete_fl (s : State) (o : Opcode) (pc0 : Addr) : (s.complete o pc0).fl = s.fl := by
  obtain ⟨_, e⟩ | ⟨-, e⟩ := s.complete_form o pc0 <;> rw [e] <;> rfl
@[simp] theorem State.complete_out (s : State) (o : Opcode) (pc0 : Addr) : (s.complete o pc0).out = s.out := by
  obtain ⟨_, e⟩ | ⟨-, e⟩ := s.complete_form o pc0 <;> rw [e] <;> rfl
@[simp] theorem State.complete_mem (s : State) (o : Opcode) (pc0 : Addr) : (s.complete o pc0).mem = s.mem := by
  obtain ⟨_, e⟩ | ⟨-, e⟩ := s.complete_form o pc0 <;> rw [e] <;> rfl
@[simp] theorem State.complete_config (s : State) (o : Opcode) (pc0 : Addr) : (s.complete o pc0).config = s.config := by
  obtain ⟨_, e⟩ | ⟨-, e⟩ := s.complete_form o pc0 <;> rw [e] <;> rfl
@[simp] theorem State.complete_getReg (s : State) (o : Opcode) (pc0 : Addr) (r : Reg) :
    (s.complete o pc0).getReg r = s.getReg r := by
  simp [State.getReg]

/-- The completion leaves the status and the fault record, or takes the advance's fault. -/
theorem State.complete_status (s : State) (o : Opcode) (pc0 : Addr) :
    ((s.complete o pc0).status = s.status ∧ (s.complete o pc0).fault = s.fault) ∨
      (s.config.addrMode = .fault ∧ (s.complete o pc0).status = .faulted ∧
        (s.complete o pc0).fault = some { cause := .addressOutOfRange, address := pc0 }) := by
  obtain ⟨_, e⟩ | ⟨h, e⟩ := s.complete_form o pc0 <;> rw [e]
  · exact .inl ⟨rfl, rfl⟩
  · exact .inr ⟨h, rfl, rfl⟩

/-- CALL and RET keep the pc their handler wrote, under either `PC_OWNER_SET`. -/
@[simp] theorem State.complete_call (s : State) (pc0 : Addr) : s.complete .call pc0 = s := by
  cases h : s.config.pcOwnerSet <;> simp [State.complete, ownsPc, h]

@[simp] theorem State.complete_ret (s : State) (pc0 : Addr) : s.complete .ret pc0 = s := by
  cases h : s.config.pcOwnerSet <;> simp [State.complete, ownsPc, h]

/-- The opcodes in no `PC_OWNER_SET`: the engine always advances after them. -/
theorem ownsPc_eq_false (owners : PcOwnerSet) {o : Opcode} (h : o ∉ [Opcode.call, .ret, .jmp, .jeq, .jne]) :
    ownsPc owners o = false := by
  cases owners <;> cases o <;> first | rfl | simp at h

theorem State.complete_of_not_owner (s : State) (pc0 : Addr) {o : Opcode} (h : o ∉ [Opcode.call, .ret, .jmp, .jeq, .jne]) :
    s.complete o pc0 = s.advance pc0 (instrLength o.code) := by
  simp [State.complete, ownsPc_eq_false _ h]

/-- The handler of a conditional jump sets pc and nothing else. -/
theorem State.branch_form (s : State) (o : Opcode) (taken : Bool) (r : Reg) : ∃ p, s.branch o taken r = s.setPc p := by
  cases taken with
  | true => exact ⟨_, rfl⟩
  | false => cases h : ownsPc s.config.pcOwnerSet o <;> simp only [State.branch, h] <;> exact ⟨_, rfl⟩

@[simp] theorem State.branch_regs (s : State) (o : Opcode) (b : Bool) (r : Reg) : (s.branch o b r).regs = s.regs := by
  obtain ⟨_, e⟩ := s.branch_form o b r; rw [e]; rfl
@[simp] theorem State.branch_fl (s : State) (o : Opcode) (b : Bool) (r : Reg) : (s.branch o b r).fl = s.fl := by
  obtain ⟨_, e⟩ := s.branch_form o b r; rw [e]; rfl
@[simp] theorem State.branch_out (s : State) (o : Opcode) (b : Bool) (r : Reg) : (s.branch o b r).out = s.out := by
  obtain ⟨_, e⟩ := s.branch_form o b r; rw [e]; rfl
@[simp] theorem State.branch_mem (s : State) (o : Opcode) (b : Bool) (r : Reg) : (s.branch o b r).mem = s.mem := by
  obtain ⟨_, e⟩ := s.branch_form o b r; rw [e]; rfl
@[simp] theorem State.branch_config (s : State) (o : Opcode) (b : Bool) (r : Reg) : (s.branch o b r).config = s.config := by
  obtain ⟨_, e⟩ := s.branch_form o b r; rw [e]; rfl
@[simp] theorem State.branch_status (s : State) (o : Opcode) (b : Bool) (r : Reg) : (s.branch o b r).status = s.status := by
  obtain ⟨_, e⟩ := s.branch_form o b r; rw [e]; rfl
@[simp] theorem State.branch_fault (s : State) (o : Opcode) (b : Bool) (r : Reg) : (s.branch o b r).fault = s.fault := by
  obtain ⟨_, e⟩ := s.branch_form o b r; rw [e]; rfl

/-! ### The stack -/

@[simp] theorem State.sp_pushWith (s : State) (v : State → Byte) : (s.pushWith v).sp = s.sp - 1 := rfl

theorem State.getReg_pushWith (s : State) (v : State → Byte) (q : Reg) :
    (s.pushWith v).getReg q = if q = .r7 then s.sp - 1 else s.getReg q :=
  RegFile.get_set s.regs .r7 q (s.sp - 1)

/-- The pushed byte is on top. -/
@[simp] theorem State.top_pushWith (s : State) (v : State → Byte) :
    (s.pushWith v).top = v (s.setReg .r7 (s.sp - 1)) := by
  simp [State.top]

/-! ### Flags -/

/-- COMPARE leaves exactly one of G, L and E, chosen by the unsigned comparison (42_alu.md R77). -/
theorem compareFlags_cases (a b : Byte) :
    (a.toNat > b.toNat ∧ compareFlags a b = 0x04) ∨ (a.toNat < b.toNat ∧ compareFlags a b = 0x02) ∨
      (a.toNat = b.toNat ∧ compareFlags a b = 0x01) := by
  rcases Nat.lt_trichotomy a.toNat b.toNat with h | h | h
  · refine .inr (.inl ⟨h, ?_⟩)
    simp [compareFlags, h, Nat.lt_asymm h, Nat.ne_of_lt h]
  · refine .inr (.inr ⟨h, ?_⟩)
    simp [compareFlags, h]
  · refine .inl ⟨h, ?_⟩
    simp [compareFlags, h, Nat.lt_asymm h, Nat.ne_of_gt h]

end Sys2Proof.Machine
end

