-- ==== Sys2Proof/Laws/PerInstr.lean ====
section
/-! SUPPORT. The family Layout, one lemma per constructor: an instruction has the length its opcode byte gives, and its
register operands stand first among its operand bytes, in order (30_encoding.md R46, R48, R54). -/

namespace Sys2Proof.Laws.Layout

def Statement (i : Instr) : Prop :=
  (encode i).length = instrLength i.opcode.code ∧ ∀ mode, i.registerOperands mode <+: i.operandBytes

theorem hlt : Statement .hlt := ⟨(by decide : 1 = instrLength Opcode.hlt.code), fun _ => ⟨[], rfl⟩⟩
theorem ldi (r1 imm8 : Byte) : Statement (.ldi r1 imm8) :=
  ⟨(by decide : 3 = instrLength Opcode.ldi.code), fun _ => ⟨[imm8], rfl⟩⟩
theorem prn (r1 : Byte) : Statement (.prn r1) := ⟨(by decide : 2 = instrLength Opcode.prn.code), fun _ => ⟨[], rfl⟩⟩
theorem mul (r1 r2 : Byte) : Statement (.mul r1 r2) :=
  ⟨(by decide : 3 = instrLength Opcode.mul.code), fun _ => ⟨[], rfl⟩⟩
theorem add (r1 r2 : Byte) : Statement (.add r1 r2) :=
  ⟨(by decide : 3 = instrLength Opcode.add.code), fun _ => ⟨[], rfl⟩⟩
theorem cmp (r1 r2 : Byte) : Statement (.cmp r1 r2) :=
  ⟨(by decide : 3 = instrLength Opcode.cmp.code), fun mode =>
    match mode with
    | .compare => ⟨[], rfl⟩
    | .jumpBug => ⟨[r2], rfl⟩⟩
theorem push (r1 : Byte) : Statement (.push r1) := ⟨(by decide : 2 = instrLength Opcode.push.code), fun _ => ⟨[], rfl⟩⟩
theorem pop (r1 : Byte) : Statement (.pop r1) := ⟨(by decide : 2 = instrLength Opcode.pop.code), fun _ => ⟨[], rfl⟩⟩
theorem call (r1 : Byte) : Statement (.call r1) := ⟨(by decide : 2 = instrLength Opcode.call.code), fun _ => ⟨[], rfl⟩⟩
theorem ret : Statement .ret := ⟨(by decide : 1 = instrLength Opcode.ret.code), fun _ => ⟨[], rfl⟩⟩
theorem jmp (r1 : Byte) : Statement (.jmp r1) := ⟨(by decide : 2 = instrLength Opcode.jmp.code), fun _ => ⟨[], rfl⟩⟩
theorem jeq (r1 : Byte) : Statement (.jeq r1) := ⟨(by decide : 2 = instrLength Opcode.jeq.code), fun _ => ⟨[], rfl⟩⟩
theorem jne (r1 : Byte) : Statement (.jne r1) := ⟨(by decide : 2 = instrLength Opcode.jne.code), fun _ => ⟨[], rfl⟩⟩

end Sys2Proof.Laws.Layout
end

