-- ==== Sys2Proof/Laws/Step.lean ====
section
/-! SUPPORT. What a fetch, an instruction and a step can do: every invariant is a case analysis of these. -/

namespace Sys2Proof.Machine

/-! ### The dispatch table -/

@[simp] theorem exec_hlt (s : State) : exec .hlt s = execHlt s := rfl
@[simp] theorem exec_ldi (r1 imm8 : Byte) (s : State) : exec (.ldi r1 imm8) s = execLdi r1 imm8 s := rfl
@[simp] theorem exec_prn (r1 : Byte) (s : State) : exec (.prn r1) s = execPrn r1 s := rfl
@[simp] theorem exec_mul (r1 r2 : Byte) (s : State) : exec (.mul r1 r2) s = execMul r1 r2 s := rfl
@[simp] theorem exec_add (r1 r2 : Byte) (s : State) : exec (.add r1 r2) s = execAdd r1 r2 s := rfl
@[simp] theorem exec_cmp (r1 r2 : Byte) (s : State) : exec (.cmp r1 r2) s = execCmp r1 r2 s := rfl
@[simp] theorem exec_push (r1 : Byte) (s : State) : exec (.push r1) s = execPush r1 s := rfl
@[simp] theorem exec_pop (r1 : Byte) (s : State) : exec (.pop r1) s = execPop r1 s := rfl
@[simp] theorem exec_call (r1 : Byte) (s : State) : exec (.call r1) s = execCall r1 s := rfl
@[simp] theorem exec_ret (s : State) : exec .ret s = execRet s := rfl
@[simp] theorem exec_jmp (r1 : Byte) (s : State) : exec (.jmp r1) s = execJmp r1 s := rfl
@[simp] theorem exec_jeq (r1 : Byte) (s : State) : exec (.jeq r1) s = execJeq r1 s := rfl
@[simp] theorem exec_jne (r1 : Byte) (s : State) : exec (.jne r1) s = execJne r1 s := rfl

/-! ### The handlers -/

/-- What the handlers do before the engine completes the instruction: one constructor per way a handler can change the
state, for an instruction whose register operands are registers. -/
inductive Handled (s : State) : Instr → State → Prop where
  | ldi (a : Reg) (v : Byte) : Handled s (.ldi a.toByte v) (s.setReg a v)
  | prn (a : Reg) : Handled s (.prn a.toByte) (s.output (s.getReg a))
  | mul (a b : Reg) : Handled s (.mul a.toByte b.toByte) (s.aluMultiply a b)
  | add (a b : Reg) : Handled s (.add a.toByte b.toByte) (s.aluAdd a b)
  | cmp (a b : Reg) : s.config.cmpMode = .compare → Handled s (.cmp a.toByte b.toByte) (s.aluCompare a b)
  | cmpJump (a : Reg) (v : Byte) : s.config.cmpMode = .jumpBug → Handled s (.cmp a.toByte v) (s.setPc (s.getReg a))
  | push (a : Reg) : Handled s (.push a.toByte) (s.pushWith fun t => t.getReg a)
  | pop (a : Reg) : Handled s (.pop a.toByte) (s.setReg a s.top).dropTop
  | call (a : Reg) (ret : Addr) : addrPlus s.config.addrMode s.pc 2 = some ret →
      Handled s (.call a.toByte) ((s.pushWith fun _ => ret).setPc ((s.pushWith fun _ => ret).getReg a))
  | ret : Handled s .ret (s.setPc s.top).dropTop
  | jmp (a : Reg) : Handled s (.jmp a.toByte) (s.setPc (s.getReg a))
  | jeq (a : Reg) : Handled s (.jeq a.toByte) (s.branch .jeq s.flagE a)
  | jne (a : Reg) : Handled s (.jne a.toByte) (s.branch .jne (!s.flagE) a)

/-- What an instruction can do: HLT halts; a register operand of 8 or more faults with no other change; a CALL whose return
address leaves memory faults with no other change; every other instruction is its handler, completed by the engine. -/
theorem exec_cases {i : Instr} {s t : State} (h : exec i s = .next t) :
    (i = .hlt ∧ t = s.halt) ∨
      (i.wellFormed s.config.cmpMode = false ∧ t = s.takeFault .invalidRegister s.pc) ∨
      ((∃ a : Reg, i = .call a.toByte) ∧ ¬ AddrFits s.config.addrMode s.pc 2 ∧ t = s.takeFault .addressOutOfRange s.pc) ∨
      (i.wellFormed s.config.cmpMode = true ∧ ∃ u, Handled s i u ∧ t = u.complete i.opcode s.pc) := by
  have lt := Reg.toByte_lt
  have one : ∀ {b : Byte} {hd : Reg → State} {t : State}, Host.Outcome.next (φ := Fault) (ρ := Refusal) (withReg b s hd) = .next t →
      (∃ a, b = a.toByte ∧ t = hd a) ∨ (8 ≤ b.toNat ∧ t = s.takeFault .invalidRegister s.pc) := by
    rintro b hd t ⟨⟩
    exact withReg_cases b s hd
  have two : ∀ {b c : Byte} {hd : Reg → Reg → State} {t : State},
      Host.Outcome.next (φ := Fault) (ρ := Refusal) (withRegs b c s hd) = .next t →
      (∃ p q, b = p.toByte ∧ c = q.toByte ∧ t = hd p q) ∨
        ((8 ≤ b.toNat ∨ 8 ≤ c.toNat) ∧ t = s.takeFault .invalidRegister s.pc) := by
    rintro b c hd t ⟨⟩
    exact withRegs_cases b c s hd
  cases i with
  | hlt => cases h; exact .inl ⟨rfl, rfl⟩
  | ret => cases h; exact .inr (.inr (.inr ⟨rfl, _, .ret, rfl⟩))
  | ldi r1 v =>
    obtain ⟨a, rfl, rfl⟩ | ⟨hb, rfl⟩ := one h
    · exact .inr (.inr (.inr ⟨by simp [Instr.wellFormed, Instr.registerOperands, lt], _, .ldi a v, rfl⟩))
    · exact .inr (.inl ⟨by simpa [Instr.wellFormed, Instr.registerOperands] using hb, rfl⟩)
  | prn r1 =>
    obtain ⟨a, rfl, rfl⟩ | ⟨hb, rfl⟩ := one h
    · exact .inr (.inr (.inr ⟨by simp [Instr.wellFormed, Instr.registerOperands, lt], _, .prn a, rfl⟩))
    · exact .inr (.inl ⟨by simpa [Instr.wellFormed, Instr.registerOperands] using hb, rfl⟩)
  | mul r1 r2 =>
    obtain ⟨a, b, rfl, rfl, rfl⟩ | ⟨hb, rfl⟩ := two h
    · exact .inr (.inr (.inr ⟨by simp [Instr.wellFormed, Instr.registerOperands, lt], _, .mul a b, rfl⟩))
    · exact .inr (.inl ⟨by simp [Instr.wellFormed, Instr.registerOperands]; omega, rfl⟩)
  | add r1 r2 =>
    obtain ⟨a, b, rfl, rfl, rfl⟩ | ⟨hb, rfl⟩ := two h
    · exact .inr (.inr (.inr ⟨by simp [Instr.wellFormed, Instr.registerOperands, lt], _, .add a b, rfl⟩))
    · exact .inr (.inl ⟨by simp [Instr.wellFormed, Instr.registerOperands]; omega, rfl⟩)
  | cmp r1 r2 =>
    simp only [exec_cmp, execCmp] at h
    cases hm : s.config.cmpMode with
    | compare =>
      rw [hm] at h
      obtain ⟨a, b, rfl, rfl, rfl⟩ | ⟨hb, rfl⟩ := two h
      · exact .inr (.inr (.inr ⟨by simp [Instr.wellFormed, Instr.registerOperands, lt], _, .cmp a b hm, rfl⟩))
      · exact .inr (.inl ⟨by simp [Instr.wellFormed, Instr.registerOperands]; omega, rfl⟩)
    | jumpBug =>
      rw [hm] at h
      obtain ⟨a, rfl, rfl⟩ | ⟨hb, rfl⟩ := one h
      · exact .inr (.inr (.inr ⟨by simp [Instr.wellFormed, Instr.registerOperands, lt], _, .cmpJump a r2 hm, rfl⟩))
      · exact .inr (.inl ⟨by simpa [Instr.wellFormed, Instr.registerOperands] using hb, rfl⟩)
  | push r1 =>
    obtain ⟨a, rfl, rfl⟩ | ⟨hb, rfl⟩ := one h
    · exact .inr (.inr (.inr ⟨by simp [Instr.wellFormed, Instr.registerOperands, lt], _, .push a, rfl⟩))
    · exact .inr (.inl ⟨by simpa [Instr.wellFormed, Instr.registerOperands] using hb, rfl⟩)
  | pop r1 =>
    obtain ⟨a, rfl, rfl⟩ | ⟨hb, rfl⟩ := one h
    · exact .inr (.inr (.inr ⟨by simp [Instr.wellFormed, Instr.registerOperands, lt], _, .pop a, rfl⟩))
    · exact .inr (.inl ⟨by simpa [Instr.wellFormed, Instr.registerOperands] using hb, rfl⟩)
  | call r1 =>
    obtain ⟨a, rfl, rfl⟩ | ⟨hb, rfl⟩ := one h
    · by_cases hf : AddrFits s.config.addrMode s.pc 2
      · have e := addrPlus_of_fits hf
        exact .inr (.inr (.inr ⟨by simp [Instr.wellFormed, Instr.registerOperands, lt], _, .call a _ e, by simp [e, Instr.opcode]⟩))
      · exact .inr (.inr (.inl ⟨⟨a, rfl⟩, hf, by simp [addrPlus_of_not_fits hf]⟩))
    · exact .inr (.inl ⟨by simpa [Instr.wellFormed, Instr.registerOperands] using hb, rfl⟩)
  | jmp r1 =>
    obtain ⟨a, rfl, rfl⟩ | ⟨hb, rfl⟩ := one h
    · exact .inr (.inr (.inr ⟨by simp [Instr.wellFormed, Instr.registerOperands, lt], _, .jmp a, rfl⟩))
    · exact .inr (.inl ⟨by simpa [Instr.wellFormed, Instr.registerOperands] using hb, rfl⟩)
  | jeq r1 =>
    obtain ⟨a, rfl, rfl⟩ | ⟨hb, rfl⟩ := one h
    · exact .inr (.inr (.inr ⟨by simp [Instr.wellFormed, Instr.registerOperands, lt], _, .jeq a, rfl⟩))
    · exact .inr (.inl ⟨by simpa [Instr.wellFormed, Instr.registerOperands] using hb, rfl⟩)
  | jne r1 =>
    obtain ⟨a, rfl, rfl⟩ | ⟨hb, rfl⟩ := one h
    · exact .inr (.inr (.inr ⟨by simp [Instr.wellFormed, Instr.registerOperands, lt], _, .jne a, rfl⟩))
    · exact .inr (.inl ⟨by simpa [Instr.wellFormed, Instr.registerOperands] using hb, rfl⟩)

/-! ### The fetch and the step -/

@[simp] theorem State.isRunning_iff (s : State) : s.isRunning = true ↔ s.status = .running := by
  simp [State.isRunning]

/-- The bytes a fetch can read when all three addresses are in memory or wrap. -/
theorem State.fetchBytes_of_fits (s : State) (h : AddrFits s.config.addrMode s.pc 2) :
    s.fetchBytes = [s.mem.read s.pc, s.mem.read (s.pc + 1), s.mem.read (s.pc + 2)] := by
  have h0 : AddrFits s.config.addrMode s.pc 0 := h.imp_right (by omega)
  have h1 : AddrFits s.config.addrMode s.pc 1 := h.imp_right (by omega)
  simp [State.fetchBytes, List.filterMap, addrPlus_of_fits h0, addrPlus_of_fits h1, addrPlus_of_fits h]

/-- The bytes a fetch can read at 254 under `ADDR_MODE = fault`. -/
theorem State.fetchBytes_of_fits_one (s : State) (h : AddrFits s.config.addrMode s.pc 1)
    (h2 : ¬ AddrFits s.config.addrMode s.pc 2) :
    s.fetchBytes = [s.mem.read s.pc, s.mem.read (s.pc + 1)] := by
  have h0 : AddrFits s.config.addrMode s.pc 0 := h.imp_right (by omega)
  simp [State.fetchBytes, List.filterMap, addrPlus_of_fits h0, addrPlus_of_fits h, addrPlus_of_not_fits h2]

/-- The bytes a fetch can read at 255 under `ADDR_MODE = fault`. -/
theorem State.fetchBytes_of_not_fits_one (s : State) (h : ¬ AddrFits s.config.addrMode s.pc 1) :
    s.fetchBytes = [s.mem.read s.pc] := by
  have h0 : AddrFits s.config.addrMode s.pc 0 := .inr (by omega)
  have h2 : ¬ AddrFits s.config.addrMode s.pc 2 := fun h' => h (h'.imp_right (by omega))
  simp [State.fetchBytes, List.filterMap, addrPlus_of_fits h0, addrPlus_of_not_fits h, addrPlus_of_not_fits h2]

/-- A fetch begins at the opcode byte. -/
theorem State.fetchBytes_head (s : State) : ∃ rest, s.fetchBytes = s.mem.read s.pc :: rest := by
  by_cases h1 : AddrFits s.config.addrMode s.pc 1
  · by_cases h2 : AddrFits s.config.addrMode s.pc 2
    · exact ⟨_, s.fetchBytes_of_fits h2⟩
    · exact ⟨_, s.fetchBytes_of_fits_one h1 h2⟩
  · exact ⟨_, s.fetchBytes_of_not_fits_one h1⟩

/-- Everything a fetch can do: the fault of an illegal opcode byte, the fault of an operand byte past 255, or the instruction
of the opcode with the bytes that follow it (40_cycle.md R60 to R62, R70 item 1). -/
theorem State.fetch_eq (s : State) :
    s.fetch =
      match Opcode.ofByte? (s.mem.read s.pc) with
      | none => .error .unknownInstruction
      | some o =>
        if AddrFits s.config.addrMode s.pc (operandCount o.code) then
          .ok (o.withOperands (s.mem.read (s.pc + 1)) (s.mem.read (s.pc + 2)))
        else .error .addressOutOfRange := by
  obtain ⟨rest, hb⟩ := s.fetchBytes_head
  cases ho : Opcode.ofByte? (s.mem.read s.pc) with
  | none => simp [State.fetch, hb, decode_cons, ho]
  | some o =>
    have hcode : s.mem.read s.pc = o.code := Opcode.ofByte?_eq_some.mp ho
    have h0 : AddrFits s.config.addrMode s.pc 0 := .inr (by omega)
    have hbytes : s.fetchBytes =
        if AddrFits s.config.addrMode s.pc 2 then [o.code, s.mem.read (s.pc + 1), s.mem.read (s.pc + 2)]
        else if AddrFits s.config.addrMode s.pc 1 then [o.code, s.mem.read (s.pc + 1)] else [o.code] := by
      split
      · rename_i h2
        rw [s.fetchBytes_of_fits h2, hcode]
      · rename_i h2
        split
        · rename_i h1
          rw [s.fetchBytes_of_fits_one h1 h2, hcode]
        · rename_i h1
          rw [s.fetchBytes_of_not_fits_one h1, hcode]
    have h21 : AddrFits s.config.addrMode s.pc 2 → AddrFits s.config.addrMode s.pc 1 := fun h => h.imp_right (by omega)
    simp only [State.fetch, hbytes]
    by_cases h2 : AddrFits s.config.addrMode s.pc 2
    · cases o <;> simp [decode_cons, operandCount_code, Opcode.format, takeOperands, Opcode.withOperands, h0, h21 h2, h2]
    · by_cases h1 : AddrFits s.config.addrMode s.pc 1
      · cases o <;> simp [decode_cons, operandCount_code, Opcode.format, takeOperands, Opcode.withOperands, h0, h1, h2]
      · cases o <;> simp [decode_cons, operandCount_code, Opcode.format, takeOperands, Opcode.withOperands, h0, h1, h2]

/-- What a fetched instruction is: the opcode's byte stands at pc, its operand addresses are in memory or wrap, and the
operands are the bytes behind it. -/
theorem State.fetch_ok {s : State} {i : Instr} (h : s.fetch = .ok i) :
    s.mem.read s.pc = i.opcode.code ∧ AddrFits s.config.addrMode s.pc (operandCount i.opcode.code) ∧
      i = i.opcode.withOperands (s.mem.read (s.pc + 1)) (s.mem.read (s.pc + 2)) := by
  rw [State.fetch_eq] at h
  split at h
  · cases h
  · rename_i o ho
    split at h
    · rename_i hf
      cases h
      have e : ∀ a b : Byte, (o.withOperands a b).opcode = o := fun a b => by cases o <;> rfl
      rw [e]
      exact ⟨Opcode.ofByte?_eq_some.mp ho, hf, rfl⟩
    · cases h

/-- Why a fetch faults. -/
theorem State.fetch_error {s : State} {c : Cause} (h : s.fetch = .error c) :
    (c = .unknownInstruction ∧ Opcode.ofByte? (s.mem.read s.pc) = none) ∨
      (c = .addressOutOfRange ∧ s.config.addrMode = .fault ∧ (Opcode.ofByte? (s.mem.read s.pc)).isSome = true) := by
  rw [State.fetch_eq] at h
  split at h
  · rename_i hn
    cases h
    exact .inl ⟨rfl, hn⟩
  · rename_i o ho
    split at h
    · cases h
    · rename_i hf
      cases h
      refine .inr ⟨rfl, ?_, by simp [ho]⟩
      cases hm : s.config.addrMode with
      | wrap => exact absurd (.inl hm) hf
      | fault => rfl

/-- What a step can do: nothing in a stopped state; the fault of its fetch; or the fetched instruction. -/
theorem step_cases {s t : State} (h : step s = .next t) :
    (s.status ≠ .running ∧ t = s) ∨
      (s.status = .running ∧ ∃ c, s.fetch = .error c ∧ t = s.takeFault c s.pc) ∨
      (s.status = .running ∧ ∃ i, s.fetch = .ok i ∧ exec i s = .next t) := by
  unfold step at h
  split at h
  · rename_i hr
    have hr := s.isRunning_iff.mp hr
    split at h
    · rename_i i hi
      exact .inr (.inr ⟨hr, i, hi, h⟩)
    · rename_i c hc
      cases h
      exact .inr (.inl ⟨hr, c, hc, rfl⟩)
  · rename_i hr
    cases h
    exact .inl ⟨fun h => hr (s.isRunning_iff.mpr h), rfl⟩

theorem step_of_running {s : State} (h : s.status = .running) :
    step s = match s.fetch with
      | .ok i => exec i s
      | .error c => .next (s.takeFault c s.pc) :=
  if_pos (s.isRunning_iff.mpr h)

end Sys2Proof.Machine
end

