-- ==== Sys2Proof/Machine/ImageText.lean ====
section
/-! DEFINITION. The program image as text (30_encoding.md R57): the host side's format, so that a program file of the spec can
be loaded into the model. Text is a list of characters. -/

namespace Sys2Proof.Machine

/-- The pieces of a text between the characters `sep` picks; n separators give n + 1 pieces. -/
def splitText (sep : Char → Bool) : List Char → List (List Char)
  | [] => [[]]
  | c :: rest =>
    match splitText sep rest with
    | [] => [[c]]
    | piece :: more => if sep c then [] :: piece :: more else (c :: piece) :: more

/-- White space at both ends of a piece of text taken off. -/
def trimText (text : List Char) : List Char :=
  ((text.dropWhile Char.isWhitespace).reverse.dropWhile Char.isWhitespace).reverse

/-- The value of one digit in a base of at most 16. -/
def digitOf (base : Nat) (c : Char) : Option Nat :=
  let v :=
    if '0' ≤ c ∧ c ≤ '9' then c.toNat - '0'.toNat
    else if 'a' ≤ c ∧ c ≤ 'f' then c.toNat - 'a'.toNat + 10
    else if 'A' ≤ c ∧ c ≤ 'F' then c.toNat - 'A'.toNat + 10
    else 16
  if v < base then some v else none

/-- The value of a non-empty list of digits, most significant first. -/
def digitsValue (base : Nat) (digits : List Char) : Option Nat :=
  match digits with
  | [] => none
  | _ => digits.foldl (fun acc c => acc.bind fun n => (digitOf base c).map fun d => n * base + d) (some 0)

/-- One line: a comment from `#` on is dropped, a blank line is `some none`, a binary literal of any length is its value,
anything else is malformed (30_encoding.md R57). -/
def parseImageLine (line : List Char) : Option (Option Nat) :=
  match trimText (line.takeWhile fun c => c != '#') with
  | [] => some none
  | digits => (digitsValue 2 digits).map some

/-- The values of a program text's surviving lines, in order; `none` for a malformed file, the spec's load error. -/
def parseImage (text : List Char) : Option (List Nat) :=
  (splitText (fun c => c == '\n') text).foldr
    (fun line acc => acc.bind fun values => (parseImageLine line).map fun v => v.toList ++ values) (some [])

/-- A program text loaded and the block reset: `none` when the file is malformed or the load interface refuses the image. -/
def powerOnText (config : Config) (text : List Char) : Option State :=
  (parseImage text).bind (powerOn config)

end Sys2Proof.Machine
end

