-- ==== Sys2Proof/Machine/Assembler.lean ====
section
/-! DEFINITION. The assembler syntax of 30_encoding.md R55, as a tool: text to the bytes of an image. No step uses it. What
R55 does not settle is in log 12. -/

namespace Sys2Proof.Machine

/-- The mnemonic column of 30_encoding.md R51. Each mnemonic assembles to one opcode (R56). -/
def opcodeMnemonic : Opcode → List Char
  | .hlt  => "HLT".toList
  | .ldi  => "LDI".toList
  | .prn  => "PRN".toList
  | .mul  => "MUL".toList
  | .add  => "ADD".toList
  | .cmp  => "CMP".toList
  | .push => "PUSH".toList
  | .pop  => "POP".toList
  | .call => "CALL".toList
  | .ret  => "RET".toList
  | .jmp  => "JMP".toList
  | .jeq  => "JEQ".toList
  | .jne  => "JNE".toList

/-- An operand as it is written. -/
inductive AsmOperand where
  /-- `R0` to `R7`. -/
  | register (r : Reg)
  /-- An immediate in decimal, or with the radix mark `0x` or `0b`. -/
  | value (n : Nat)
  /-- A label, where an immediate may stand. -/
  | label (name : List Char)
  deriving DecidableEq, Repr

/-- One instruction as it is written, with the label before it: at most one (log 12). -/
structure AsmLine where
  label    : Option (List Char)
  opcode   : Opcode
  operands : List AsmOperand
  deriving DecidableEq, Repr

/-- A number: decimal, `0x` hexadecimal or `0b` binary. -/
def parseNumber : List Char → Option Nat
  | '0' :: 'x' :: digits => digitsValue 16 digits
  | '0' :: 'b' :: digits => digitsValue 2 digits
  | digits => digitsValue 10 digits

/-- A name: a letter or `_`, then letters, digits and `_`. -/
def isLabelName : List Char → Bool
  | [] => false
  | c :: rest => (c.isAlpha || c == '_') && rest.all fun d => d.isAlphanum || d == '_'

/-- A register operand `R0` to `R7`. -/
def parseRegister : List Char → Option Reg
  | ['R', c] => (digitOf 10 c).bind fun n => Reg.ofByte? (BitVec.ofNat 8 n)
  | _ => none

/-- One operand. -/
def parseOperand (text : List Char) : Option AsmOperand :=
  match parseRegister text, parseNumber text with
  | some r, _ => some (.register r)
  | none, some n => if n ≤ 255 then some (.value n) else none
  | none, none => if isLabelName text then some (.label text) else none

/-- The operands of a statement, separated by commas. -/
def parseOperands (text : List Char) : Option (List AsmOperand) :=
  match trimText text with
  | [] => some []
  | t => (splitText (fun c => c == ',') t).mapM fun p => parseOperand (trimText p)

/-- A statement without its label: a mnemonic in capitals, then its operands. -/
def parseInstruction (label : Option (List Char)) (text : List Char) : Option AsmLine :=
  let name := text.takeWhile fun c => !c.isWhitespace
  (Opcode.all.find? fun o => opcodeMnemonic o == name).bind fun o =>
    (parseOperands (text.drop name.length)).map fun ops => { label := label, opcode := o, operands := ops }

/-- One statement: `some none` when it is blank. A label stands before the mnemonic of its own statement; R55 does not say
whether it may stand on a line of its own before the instruction's, and the model refuses it there (DESIGN CHOICE, log 12). -/
def parseStatement (text : List Char) : Option (Option AsmLine) :=
  match splitText (fun c => c == ':') text with
  | [body] =>
    match trimText body with
    | [] => some none
    | t => (parseInstruction none t).map some
  | [name, body] =>
    if isLabelName (trimText name) then (parseInstruction (some (trimText name)) (trimText body)).map some else none
  | _ => none

/-- The statements of a program: one a line, or separated by `;`. -/
def parseProgram (text : List Char) : Option (List AsmLine) :=
  (splitText (fun c => c == '\n' || c == ';') text).foldr
    (fun st acc => acc.bind fun more => (parseStatement st).map fun l => l.toList ++ more) (some [])

/-- The labels of a program with the address of the opcode byte each stands before. -/
def labelAddresses (at_ : Nat) : List AsmLine → List (List Char × Nat)
  | [] => []
  | l :: rest =>
    (l.label.map fun name => (name, at_)).toList ++ labelAddresses (at_ + instrLength l.opcode.code) rest

/-- The byte of a register operand. -/
def registerOperand : AsmOperand → Option Byte
  | .register r => some r.toByte
  | _ => none

/-- The byte of an immediate operand: a value, or a label's address. -/
def immediateOperand (labels : List (List Char × Nat)) : AsmOperand → Option Byte
  | .register _ => none
  | .value n => if n ≤ 255 then some (BitVec.ofNat 8 n) else none
  | .label name =>
    (labels.find? fun l => l.1 == name).bind fun l => if l.2 ≤ 255 then some (BitVec.ofNat 8 l.2) else none

/-- The operand bytes of a statement, in the order `r1`, then `r2` or `imm8`; `none` when the operands are not those of the
opcode's format (30_encoding.md R50). -/
def operandsFor (labels : List (List Char × Nat)) (f : Format) (operands : List AsmOperand) : Option (List Byte) :=
  match f, operands with
  | .f0, [] => some []
  | .f1r, [a] => [registerOperand a].mapM id
  | .f2ri, [a, b] => [registerOperand a, immediateOperand labels b].mapM id
  | .f2rr, [a, b] => [registerOperand a, registerOperand b].mapM id
  | _, _ => none

/-- The bytes of a program text, from address 0; `none` when the text is not of the syntax or a label is unknown or is
defined twice. -/
def assemble (text : List Char) : Option (List Byte) :=
  (parseProgram text).bind fun lines =>
    let labels := labelAddresses 0 lines
    if (labels.map Prod.fst).Nodup then
      (lines.mapM fun l => (operandsFor labels l.opcode.format l.operands).map fun bs => l.opcode.code :: bs).map
        List.flatten
    else none

end Sys2Proof.Machine
end

