-- ==== Sys2Proof/Tests/Slice0.lean ====
section
/-! SUPPORT. The model's own tests. Expected results are those of spec/95_test_vectors.md (V, A, K, T, F, S, P name its
vectors) or of a rule's worked example; words are written out from 30_encoding.md R51. The witnesses at the end show, for each
statement that has hypotheses, a state and operands that meet them. -/

namespace Sys2Proof.Tests

open Sys2Proof.Machine

/-- The reset state with bytes at an address and pc there. -/
def at_ (pc : Addr) (bytes : List Byte) : State :=
  { State.reset with pc := pc, mem := Memory.writeBytes [] pc bytes }

/-- The same state with one register set. -/
def withR (s : State) (r : Reg) (v : Byte) : State :=
  { s with regs := s.regs.set r v }

/-- The same state with one byte of memory set. -/
def withM (s : State) (a : Addr) (v : Byte) : State :=
  { s with mem := s.mem.write a v }

/-- The same state under other parameters. -/
def faultMode (s : State) : State := { s with config := { s.config with addrMode := .fault } }
def jumpsOwnPc (s : State) : State := { s with config := { s.config with pcOwnerSet := .callRetJumps } }
def jumpBug (s : State) : State := { s with config := { s.config with cmpMode := .jumpBug } }

/-- The next state a step or a meaning answers, looked at through `f`. -/
def look {α : Type} (r : Result) (f : State → α) : Option α :=
  match r with
  | .next t => some (f t)
  | .fault _ => none
  | .refused _ => none

/-- A step or a meaning answers a next state with a property. -/
def gives (r : Result) (p : State → Bool) : Bool :=
  look r p == some true

/-- The fault record a cause and an address make. -/
def rec_ (c : Cause) (a : Addr) : Option FaultRecord := some { cause := c, address := a }

/-! ### Well-formedness: each register-operand check refuses an ill-formed term (30_encoding.md R49) -/

theorem test_wellFormed_accepts : Instr.wellFormed .compare (.add 7 0) = true := by decide
theorem test_wellFormed_immediate_unchecked : Instr.wellFormed .compare (.ldi 0 255) = true := by decide
theorem test_wellFormed_no_operand : Instr.wellFormed .compare .ret = true := by decide
theorem test_wellFormed_refuses_ldi : Instr.wellFormed .compare (.ldi 8 0) = false := by decide
theorem test_wellFormed_refuses_prn : Instr.wellFormed .compare (.prn 9) = false := by decide
theorem test_wellFormed_refuses_mul : Instr.wellFormed .compare (.mul 0 8) = false := by decide
theorem test_wellFormed_refuses_add : Instr.wellFormed .compare (.add 8 0) = false := by decide
theorem test_wellFormed_refuses_cmp : Instr.wellFormed .compare (.cmp 1 9) = false := by decide
theorem test_wellFormed_jump_bug_ignores : Instr.wellFormed .jumpBug (.cmp 1 9) = true := by decide
theorem test_wellFormed_refuses_push : Instr.wellFormed .compare (.push 10) = false := by decide
theorem test_wellFormed_refuses_pop : Instr.wellFormed .compare (.pop 255) = false := by decide
theorem test_wellFormed_refuses_call : Instr.wellFormed .compare (.call 8) = false := by decide
theorem test_wellFormed_refuses_jmp : Instr.wellFormed .compare (.jmp 8) = false := by decide
theorem test_wellFormed_refuses_jeq : Instr.wellFormed .compare (.jeq 9) = false := by decide
theorem test_wellFormed_refuses_jne : Instr.wellFormed .compare (.jne 128) = false := by decide

/-! ### Decoding: every constructor's word, written out bit by bit from R51 and R50 -/

theorem test_decode_hlt : decode [0b00000001] = .ok (.hlt, []) := rfl
theorem test_decode_ldi : decode [0b10000010, 0b00000000, 0b00001000] = .ok (.ldi 0 8, []) := rfl
theorem test_decode_prn : decode [0b01000111, 0b00000000] = .ok (.prn 0, []) := rfl
theorem test_decode_mul : decode [0b10100010, 0b00000001, 0b00000010] = .ok (.mul 1 2, []) := rfl
theorem test_decode_add : decode [0b10100000, 0b00000010, 0b00000011] = .ok (.add 2 3, []) := rfl
theorem test_decode_cmp : decode [0b10100111, 0b00000100, 0b00000101] = .ok (.cmp 4 5, []) := rfl
theorem test_decode_push : decode [0b01000101, 0b00000110] = .ok (.push 6, []) := rfl
theorem test_decode_pop : decode [0b01000110, 0b00000111] = .ok (.pop 7, []) := rfl
theorem test_decode_call : decode [0b01010000, 0b00000001] = .ok (.call 1, []) := rfl
theorem test_decode_ret : decode [0b00010001] = .ok (.ret, []) := rfl
theorem test_decode_jmp : decode [0b01010100, 0b00000011] = .ok (.jmp 3, []) := rfl
theorem test_decode_jeq : decode [0b01010101, 0b00000100] = .ok (.jeq 4, []) := rfl
theorem test_decode_jne : decode [0b01010110, 0b00000101] = .ok (.jne 5, []) := rfl

/-- F2, F3, F4: 0xFF, one bit from ADD, and one bit from PRN are refused by name. -/
theorem test_decode_refuses_illegal :
    decode [0xFF] = .error (.unknownOpcode 0xFF) ∧ decode [0xA1, 0, 1] = .error (.unknownOpcode 0xA1) ∧
      decode [0x48] = .error (.unknownOpcode 0x48) := ⟨rfl, rfl, rfl⟩

/-- R52: 13 opcode bytes, no two the same, so 243 of the 256 are illegal. -/
theorem test_legal_bytes_counted : Opcode.all.length = 13 ∧ (Opcode.all.map Opcode.code).Nodup := by decide

theorem test_decode_refuses_truncated : decode [0x82, 0x00] = .error .truncated := rfl

/-- R53's two regularities of the table. -/
theorem test_opcode_bits :
    (Opcode.all.filter fun o => o.code.getLsbD 5) = [.mul, .add, .cmp] ∧
      (Opcode.all.filter fun o => o.code.getLsbD 4) = [.call, .ret, .jmp, .jeq, .jne] := by decide

/-- The table numbers bit 0 in the first byte: LDI R3, 0xFF is 0xFF0382. -/
theorem test_decodeTableWord :
    decodeTableWord 24 0xFF0382 = some (.ldi 3 0xFF) ∧ decodeTableWord 8 0x82 = some (.ldi 0 0) ∧
      decodeTableWord 8 0x00 = none := by decide

/-- The placed instruction is the first one after reset. -/
theorem test_withFetchWord : gives (step (State.reset.withFetchWord 24 0xFF0382)) fun t => t.getReg .r3 == 0xFF && t.pc == 3 := by
  decide

/-! ### One step of each instruction -/

theorem test_ldi_operands_wrap : look (step (at_ 0xFE [0x82, 0x02, 0x07])) (fun t => (t.getReg .r2, t.pc)) = some (7, 1) := by
  decide -- V4
theorem test_ldi_invalid_register : look (step (at_ 0 [0x82, 0x08, 0x05])) (fun t => (t.status, t.fault, t.pc))
    = some (.faulted, rec_ .invalidRegister 0, 0) := by decide -- V5
theorem test_prn_sp : look (step (at_ 0 [0x47, 0x07])) (fun t => (t.out, t.pc)) = some ([0xF4], 2) := by decide -- V8
theorem test_prn_invalid_register : look (step (at_ 0 [0x47, 0x09])) (fun t => (t.fault, t.out))
    = some (rec_ .invalidRegister 0, []) := by decide -- V9
theorem test_add_wraps : look (step (withR (withR (at_ 0x11 [0xA0, 2, 3]) .r2 200) .r3 100)) (fun t => (t.getReg .r2, t.pc, t.fl))
    = some (44, 0x14, 0) := by decide -- A2
theorem test_add_same_register : look (step (withR (at_ 0 [0xA0, 0, 0]) .r0 0x80)) (fun t => t.getReg .r0) = some 0 := by
  decide -- A4
theorem test_mul_low_byte : look (step (withR (withR (at_ 0 [0xA2, 0, 1]) .r0 0x10) .r1 0x11)) (fun t => t.getReg .r0)
    = some 0x10 := by decide -- A9
theorem test_mul_squares : look (step (withR (at_ 0 [0xA2, 0, 0]) .r0 0xFF)) (fun t => (t.getReg .r0, t.pc)) = some (1, 3) := by
  decide -- A10
theorem test_cmp_unsigned : look (step (withR (at_ 0 [0xA7, 0, 1]) .r1 0xFF)) (fun t => (t.fl, t.pc)) = some (2, 3) := by
  decide -- A15
theorem test_cmp_jump_bug_wraps : look (step (withR (jumpBug (at_ 0 [0xA7, 1, 9])) .r1 0xFE)) (fun t => (t.pc, t.fl))
    = some (1, 0) := by decide -- A20
theorem test_push_wraps : look (step (withR (withR (at_ 0 [0x45, 0]) .r0 0x11) .r7 0)) (fun t => (t.sp, t.mem.read 0xFF))
    = some (0xFF, 0x11) := by decide -- K2
theorem test_push_sp : look (step (at_ 0 [0x45, 7])) (fun t => (t.sp, t.mem.read 0xF3)) = some (0xF3, 0xF3) := by decide -- K3
theorem test_pop_wraps : look (step (withR (withM (at_ 0 [0x46, 1]) 0xFF 0x66) .r7 0xFF)) (fun t => (t.getReg .r1, t.sp))
    = some (0x66, 0) := by decide -- K5
theorem test_pop_sp : look (step (withR (withM (at_ 0 [0x46, 7]) 0xF3 0x10) .r7 0xF3)) (fun t => t.sp) = some 0x11 := by
  decide -- K6
theorem test_call_return_address_wraps : look (step (withR (at_ 0xFE [0x50, 1]) .r1 0x10)) (fun t => (t.mem.read 0xF3, t.pc))
    = some (0, 0x10) := by decide -- T2
theorem test_call_sp : look (step (at_ 0x20 [0x50, 7])) (fun t => (t.sp, t.mem.read 0xF3, t.pc)) = some (0xF3, 0x22, 0xF3) := by
  decide -- T3
theorem test_ret : look (step (withR (withM (at_ 0x0B [0x11]) 0xF3 5) .r7 0xF3)) (fun t => (t.pc, t.sp)) = some (5, 0xF4) := by
  decide -- T4
theorem test_jmp_advances : look (step (withR (at_ 0x30 [0x54, 1]) .r1 0xFE)) (fun t => t.pc) = some 0 := by decide -- T7
theorem test_jmp_owner : look (step (withR (jumpsOwnPc (at_ 0x30 [0x54, 1])) .r1 0x10)) (fun t => t.pc) = some 0x10 := by
  decide -- T9
theorem test_jeq_taken : look (step { withR (at_ 0x30 [0x55, 1]) .r1 0x10 with fl := 1 }) (fun t => t.pc) = some 0x12 := by
  decide -- T10
theorem test_jeq_checked_though_not_taken : look (step { at_ 0x30 [0x55, 9] with fl := 4 }) (fun t => t.fault)
    = some (rec_ .invalidRegister 0x30) := by decide -- T13
theorem test_jne_falls_through : look (step { jumpsOwnPc (withR (at_ 0x30 [0x56, 1]) .r1 0x10) with fl := 1 }) (fun t => t.pc)
    = some 0x32 := by decide -- T16
theorem test_jne_owner_taken : look (step { jumpsOwnPc (withR (at_ 0x30 [0x56, 1]) .r1 0x10) with fl := 2 }) (fun t => t.pc)
    = some 0x10 := by decide -- T17
theorem test_hlt : look (step (at_ 5 [0x01])) (fun t => (t.status, t.pc)) = some (.halted, 5) := by decide -- T18

/-! ### The cycle and faults -/

theorem test_opcode_check_first : look (step (at_ 0 [0xC2, 8, 8])) (fun t => t.fault) = some (rec_ .unknownInstruction 0) := by
  decide -- F5
theorem test_halted_is_final : look (step { at_ 5 [0x82, 0, 9] with status := .halted }) (fun t => (t.status, t.pc, t.getReg .r0))
    = some (.halted, 5, 0) := by decide -- F6
theorem test_operand_fetch_faults : look (step (faultMode (at_ 0xFF [0x47, 0]))) (fun t => (t.fault, t.out))
    = some (rec_ .addressOutOfRange 0xFF, []) := by decide -- F7
theorem test_advance_faults : look (step (withR (faultMode (at_ 0xFE [0x47, 0])) .r0 1)) (fun t => (t.fault, t.out, t.pc))
    = some (rec_ .addressOutOfRange 0xFE, [1], 0xFE) := by decide -- F8
theorem test_call_return_address_faults : look (step (faultMode (at_ 0xFE [0x50, 1]))) (fun t => (t.fault, t.sp, t.mem.read 0xF3))
    = some (rec_ .addressOutOfRange 0xFE, 0xF4, 0) := by decide -- F9
theorem test_jmp_advance_faults : look (step (withR (faultMode (at_ 0x30 [0x54, 1])) .r1 0xFE)) (fun t => (t.fault, t.pc))
    = some (rec_ .addressOutOfRange 0x30, 0xFE) := by decide -- F10

/-! ### Reset and the host's side -/

theorem test_reset : State.reset.sp = 0xF4 ∧ State.reset.pc = 0 ∧ State.reset.fl = 0 ∧ State.reset.status = .running := by decide
theorem test_powerOn_runs_the_image :
    ((powerOn Config.normative [0x82, 0x00, 0x08]).map fun s => look (step s) fun t => t.getReg .r0) = some (some 8) := by decide
theorem test_image_text :
    parseImage "10000010 # LDI R0,8\n00000000\n\n1000\n # end".toList = some [0x82, 0, 8] ∧
      parseImage "1002".toList = none := by decide -- R57
theorem test_load_refuses_a_literal_above_255 : (powerOnText Config.normative "100000000".toList).isNone = true := by decide -- D29
theorem test_assemble_S6 : assemble "LDI R0,8; PRN R0; HLT".toList = some [0x82, 0, 8, 0x47, 0, 1] := by decide
theorem test_assemble_label :
    assemble "LDI R1, sub\nCALL R1\nHLT\nsub: LDI R0, 0x63\nRET".toList = some [0x82, 1, 6, 0x50, 1, 1, 0x82, 0, 0x63, 0x11] := by
  decide
theorem test_render : renderOut [3, 0, 255] = "3\n0\n255\n" := by decide -- R19
theorem test_codes : [Status.running, .halted, .faulted].map Status.portCode = [0, 1, 2] ∧
    [Cause.unknownInstruction, .invalidRegister, .addressOutOfRange].map Cause.portCode = [1, 2, 3] := by decide

/-! ### Witnesses: the hypotheses of each statement can be met, at the boundaries of their ranges -/

theorem witness_PowerOnLoadsTheImage :
    (([82, 255] : List Nat).length ≤ 256 ∧ ∀ v ∈ ([82, 255] : List Nat), v ≤ 255) ∧
      ¬ (([256] : List Nat).length ≤ 256 ∧ ∀ v ∈ ([256] : List Nat), v ≤ 255) := by decide
theorem witness_PowerOnLoadsTheImage_longest :
    (List.replicate 256 255).length ≤ 256 ∧ ¬ (List.replicate 257 0).length ≤ 256 :=
  ⟨by rw [List.length_replicate], by rw [List.length_replicate]; decide⟩
theorem witness_OnlyAResetLeavesAStoppedState : ({ State.reset with status := .halted } : State).status ≠ .running := by decide
theorem witness_NoResetWhileRunning : State.reset.status = .running := by decide
theorem witness_LengthIsReadFromTheOpcodeByte : decode (0x82 :: [3, 255, 9]) = .ok (.ldi 3 255, [9]) := rfl
theorem witness_StepRunsTheDecodedInstruction :
    let s := faultMode (at_ 253 [0x82, 3, 255])
    s.status = .running ∧ AddrFits s.config.addrMode s.pc (Instr.operandBytes (.ldi 3 255)).length := by decide
theorem witness_StepRunsTheDecodedInstruction_decodes :
    let s := faultMode (at_ 253 [0x82, 3, 255])
    decode [s.mem.read s.pc, s.mem.read (s.pc + 1), s.mem.read (s.pc + 2)] = .ok (.ldi 3 255, []) := rfl
theorem witness_IllegalOpcodeFaults : State.reset.status = .running ∧ State.reset.mem.read State.reset.pc ∉
    ([0x01, 0x82, 0x47, 0xA2, 0xA0, 0xA7, 0x45, 0x46, 0x50, 0x11, 0x54, 0x55, 0x56] : List Byte) := by decide
theorem witness_IllFormedInstructionsFault : Instr.wellFormed State.reset.config.cmpMode (.jeq 8) = false := by decide
theorem witness_OperandFetchPast255Faults :
    let s := faultMode (at_ 254 [0x82])
    s.status = .running ∧ s.config.addrMode = .fault ∧ s.mem.read s.pc = Opcode.ldi.code ∧
      s.pc.toNat + operandCount Opcode.ldi.code > 255 := by decide
/-- The two-operand opcodes LDI, ADD, MUL and CMP share `OperandFetchFaultsFrom … 254`; the one-operand ones `… 255`. -/
theorem witness_OperandFetchFaultsFrom_254 : ∀ o ∈ [Opcode.ldi, .add, .mul, .cmp],
    let s := faultMode (at_ 254 [o.code])
    s.status = .running ∧ s.config.addrMode = .fault ∧ 254 ≤ s.pc.toNat ∧ s.mem.read s.pc = o.code := by decide
theorem witness_OperandFetchFaultsFrom_255 : ∀ o ∈ [Opcode.prn, .push, .pop, .call, .jmp, .jeq, .jne],
    let s := faultMode (at_ 255 [o.code])
    s.status = .running ∧ s.config.addrMode = .fault ∧ 255 ≤ s.pc.toNat ∧ s.mem.read s.pc = o.code := by decide
theorem witness_OnlyHltHalts :
    (at_ 5 [0x01]).status = .running ∧ gives (step (at_ 5 [0x01])) (fun t => t.status == .halted) = true := by decide
theorem witness_FaultsUnderWrapAreExactAndPrecise : (at_ 0 [0x82, 8]).status = .running ∧ (at_ 0 [0x82, 8]).config.addrMode = .wrap ∧
    gives (step (at_ 0 [0x82, 8])) (fun t => t.status == .faulted) = true := by decide
theorem witness_FaultsRecordTheInstructionAddress : (faultMode (at_ 254 [0x47, 0])).status = .running ∧
    gives (step (faultMode (at_ 254 [0x47, 0]))) (fun t => t.status == .faulted && t.out == [0]) = true := by decide
/-- A three-byte instruction's advance fits up to 252 under `ADDR_MODE = fault`, everywhere under `wrap`; a two-byte one's up to
253. The premises of LDI, ADD, MUL, PRN, PUSH, POP, CALL and of a jump that falls through. -/
theorem witness_AddrFits : AddrFits (faultMode (at_ 252 [])).config.addrMode (faultMode (at_ 252 [])).pc 3 ∧
    AddrFits (faultMode (at_ 253 [])).config.addrMode (faultMode (at_ 253 [])).pc 2 ∧
    AddrFits (at_ 255 []).config.addrMode (at_ 255 []).pc 3 := by decide
/-- The premises of the register check, of the advance's fault of a three-byte and of a two-byte instruction. -/
theorem witness_fault_clauses : 8 ≤ (8 : Byte).toNat ∧
    ((faultMode (at_ 253 [])).config.addrMode = .fault ∧ (faultMode (at_ 253 [])).pc = 253) ∧
    ((faultMode (at_ 254 [])).config.addrMode = .fault ∧ (faultMode (at_ 254 [])).pc = 254) := by decide
theorem witness_LdiLoadsItsImmediate_step :
    let s := faultMode (at_ 252 [0x82, 7, 1])
    s.status = .running ∧ s.mem.read s.pc = 0x82 ∧ s.mem.read (s.pc + 1) = Reg.r7.toByte ∧
      AddrFits s.config.addrMode s.pc 3 := by decide
theorem witness_PrnOutputsARegister_step :
    let s := faultMode (at_ 253 [0x47, 7])
    s.status = .running ∧ s.mem.read s.pc = 0x47 ∧ s.mem.read (s.pc + 1) = Reg.r7.toByte ∧
      AddrFits s.config.addrMode s.pc 2 := by decide
theorem witness_AddAddsRegisters : 8 ≤ (0 : Byte).toNat ∨ 8 ≤ (8 : Byte).toNat := by decide
theorem witness_CmpComparesRegisters :
    let s := faultMode (at_ 252 [])
    let u := faultMode (at_ 253 [])
    (s.config.cmpMode = .compare ∧ AddrFits s.config.addrMode s.pc 3) ∧
      (u.config.cmpMode = .compare ∧ u.config.addrMode = .fault ∧ u.pc = 253) ∧ (8 ≤ (255 : Byte).toNat ∨ 8 ≤ (0 : Byte).toNat) := by
  decide
theorem witness_CmpUnderJumpBugJumps :
    let s := jumpBug (faultMode (withR (at_ 0 []) .r1 252))
    let u := jumpBug (faultMode (withR (at_ 0 []) .r1 253))
    (s.config.cmpMode = .jumpBug ∧ AddrFits s.config.addrMode (s.regs.get .r1) 3) ∧
      (u.config.cmpMode = .jumpBug ∧ u.config.addrMode = .fault ∧ 253 ≤ (u.regs.get .r1).toNat) := by decide
theorem witness_PopLoadsARegister : Reg.r0 ≠ Reg.r7 := by decide
theorem witness_CallPushesTheReturnAddress :
    (faultMode (at_ 254 [])).config.addrMode = .fault ∧ 254 ≤ (faultMode (at_ 254 [])).pc.toNat := by decide
theorem witness_RetPopsThePc : (at_ 9 [0x11]).status = .running ∧ (at_ 9 [0x11]).mem.read (at_ 9 [0x11]).pc = 0x11 := by decide
theorem witness_JmpJumpsThroughARegister :
    let s := faultMode (withR (at_ 0 []) .r1 253)
    let u := faultMode (withR (at_ 0 []) .r1 254)
    (s.config.pcOwnerSet = .callRet ∧ AddrFits s.config.addrMode (s.regs.get .r1) 2) ∧
      (u.config.pcOwnerSet = .callRet ∧ u.config.addrMode = .fault ∧ 254 ≤ (u.regs.get .r1).toNat) ∧
      (jumpsOwnPc u).config.pcOwnerSet = .callRetJumps := by decide
theorem witness_JeqJumpsIfEqual_taken :
    let s := { faultMode (withR (at_ 0 []) .r1 253) with fl := 0x01 }
    let u := { faultMode (withR (at_ 0 []) .r1 254) with fl := 0x01 }
    (s.fl.getLsbD 0 = true ∧ s.config.pcOwnerSet = .callRet ∧ AddrFits s.config.addrMode (s.regs.get .r1) 2) ∧
      (u.fl.getLsbD 0 = true ∧ u.config.pcOwnerSet = .callRet ∧ u.config.addrMode = .fault ∧ 254 ≤ (u.regs.get .r1).toNat) ∧
      ((jumpsOwnPc u).fl.getLsbD 0 = true ∧ (jumpsOwnPc u).config.pcOwnerSet = .callRetJumps) := by decide
theorem witness_JeqJumpsIfEqual_not_taken :
    let s := { faultMode (at_ 253 []) with fl := 0x04 }
    let u := { faultMode (at_ 254 []) with fl := 0x02 }
    (s.fl.getLsbD 0 = false ∧ s.config.pcOwnerSet = .callRet ∧ AddrFits s.config.addrMode s.pc 2) ∧
      ((jumpsOwnPc u).fl.getLsbD 0 = false ∧ (jumpsOwnPc u).config.pcOwnerSet = .callRetJumps) ∧
      (u.fl.getLsbD 0 = false ∧ u.config.pcOwnerSet = .callRet ∧ u.config.addrMode = .fault ∧ u.pc = 254) := by decide
theorem witness_JneJumpsIfNotEqual_taken :
    let s := { faultMode (withR (at_ 0 []) .r1 253) with fl := 0x02 }
    let u := { faultMode (withR (at_ 0 []) .r1 254) with fl := 0x00 }
    ((!s.fl.getLsbD 0) = true ∧ s.config.pcOwnerSet = .callRet ∧ AddrFits s.config.addrMode (s.regs.get .r1) 2) ∧
      ((!u.fl.getLsbD 0) = true ∧ u.config.pcOwnerSet = .callRet ∧ u.config.addrMode = .fault ∧ 254 ≤ (u.regs.get .r1).toNat) ∧
      ((!(jumpsOwnPc u).fl.getLsbD 0) = true ∧ (jumpsOwnPc u).config.pcOwnerSet = .callRetJumps) := by decide
theorem witness_JneJumpsIfNotEqual_not_taken :
    let s := { faultMode (at_ 253 []) with fl := 0x01 }
    let u := { faultMode (at_ 254 []) with fl := 0x01 }
    ((!s.fl.getLsbD 0) = false ∧ s.config.pcOwnerSet = .callRet ∧ AddrFits s.config.addrMode s.pc 2) ∧
      ((!(jumpsOwnPc u).fl.getLsbD 0) = false ∧ (jumpsOwnPc u).config.pcOwnerSet = .callRetJumps) ∧
      ((!u.fl.getLsbD 0) = false ∧ u.config.pcOwnerSet = .callRet ∧ u.config.addrMode = .fault ∧ u.pc = 254) := by decide
theorem witness_HltHaltsInPlace : (at_ 255 [0x01]).status = .running ∧ (at_ 255 [0x01]).mem.read (at_ 255 [0x01]).pc = 0x01 ∧
    gives (step (at_ 255 [0x01])) (fun t => t.status == .halted) = true := by decide
theorem witness_LdiAddMulFrame : gives (exec (.ldi 7 255) State.reset) (fun _ => true) = true ∧
    gives (exec (.add 0 7) State.reset) (fun _ => true) = true ∧ gives (exec (.mul 7 0) State.reset) (fun _ => true) = true ∧
    Reg.r0.toByte ≠ (7 : Byte) := by decide
theorem witness_InstructionsThatWriteNoRegisterFrame :
    ∀ i ∈ [Instr.prn 7, .cmp 0 7, .jmp 7, .jeq 7, .jne 7, .hlt], gives (exec i State.reset) (fun _ => true) = true := by decide
theorem witness_PushCallFrame : gives (exec (.push 7) State.reset) (fun _ => true) = true ∧
    gives (exec (.call 7) State.reset) (fun _ => true) = true ∧ (0xF4 : Addr) ≠ State.reset.getReg .r7 - 1 := by decide
theorem witness_PopRetFrame : gives (exec (.pop 0) State.reset) (fun _ => true) = true ∧
    gives (exec .ret State.reset) (fun _ => true) = true ∧ Reg.r6 ≠ Reg.r7 ∧ Reg.r6.toByte ≠ (0 : Byte) := by decide
theorem witness_ResetStatesAreLegal : (powerOn Config.normative [0x01]).isSome = true := by decide
theorem witness_EveryStepKeepsTheInvariant : State.reset.Inv ∧ gives (step State.reset) (fun t => t.status == .faulted) = true := by
  decide
theorem witness_NoStepChangesTheParameters : gives (step (jumpBug (at_ 0 [0x01]))) (fun t => t.config.cmpMode == .jumpBug) = true := by
  decide
theorem witness_FlagsChangeOnlyByCmp : gives (step (at_ 0 [0xA7, 0, 7])) (fun t => t.fl != (at_ 0 [0xA7, 0, 7]).fl) = true := by
  decide
theorem witness_OnlyBitZeroOfFlagsIsRead :
    let s := { at_ 0 [0x55, 7] with fl := 0x01 }
    gives (step s) (fun t => t.pc == 0xF6) = true ∧ s.mem.read s.pc = 0x55 ∧ (0xFF : Byte).getLsbD 0 = s.fl.getLsbD 0 := by decide
theorem witness_OutputGrowsOnlyByPrn : gives (step (at_ 0 [0x47, 7])) (fun t => t.out != (at_ 0 [0x47, 7]).out) = true := by decide
theorem witness_NothingReadsTheOutputPort : gives (step { at_ 0 [0x47, 7] with out := [1] }) (fun t => t.out == [1, 0xF4]) = true := by
  decide
theorem witness_MemoryAccessesAreTheListedOnes_write :
    gives (step (at_ 0 [0x45, 7])) (fun t => t.mem.read 0xF3 != (at_ 0 [0x45, 7]).mem.read 0xF3) = true := by decide
theorem witness_MemoryAccessesAreTheListedOnes_read :
    let s := withM (at_ 0 [0x46, 1]) 0xF4 9
    let m := (s.mem.write 2 77).write 0xF3 5
    gives (step s) (fun t => t.getReg .r1 == 9) = true ∧ m ≠ s.mem ∧ m.read s.pc = s.mem.read s.pc ∧
      m.read (s.pc + 1) = s.mem.read (s.pc + 1) ∧ operandCount (s.mem.read s.pc) = 1 ∧ s.mem.read s.pc = 0x46 ∧
      m.read (s.getReg .r7) = s.mem.read (s.getReg .r7) := by decide
theorem witness_OnlyTransfersLeaveTheSequence :
    let s := at_ 254 [0xA7, 0, 1]
    s.status = .running ∧ gives (step s) (fun t => t.status != .faulted) = true ∧
      s.mem.read s.pc ∉ ([0x50, 0x11, 0x54, 0x55, 0x56, 0x01] : List Byte) ∧ s.mem.read s.pc = 0xA7 ∧
      s.config.cmpMode = .compare := by decide
theorem witness_PushThenPopCarriesTheValue : Reg.r0 ≠ Reg.r7 ∧ Reg.r6 ≠ Reg.r7 ∧
    AddrFits (faultMode (at_ 251 [])).config.addrMode (faultMode (at_ 251 [])).pc 4 := by decide
theorem witness_RetReturnsBehindItsCall :
    let u := withR (withM (at_ 9 [0x11]) 0xF3 2) .r7 0xF3
    AddrFits State.reset.config.addrMode State.reset.pc 2 ∧
      gives (exec (.call 1) State.reset) (fun t => u.getReg .r7 == t.getReg .r7 &&
        u.mem.read (u.getReg .r7) == t.mem.read (t.getReg .r7)) = true := by decide
theorem witness_MemoriesThatReadAlikeAreEqual : Memory.wf [(0, 1), (255, 9)] = true := by decide
/-- A PUSH of 0x01 (HLT) over the byte the next step fetches. -/
theorem witness_FetchSeesThePushedByte :
    let s := withR (withR (at_ 0 [0x45, 0]) .r0 0x01) .r7 3
    s.status = .running ∧ s.config.addrMode = .wrap ∧ s.mem.read s.pc = 0x45 ∧ s.mem.read (s.pc + 1) = Reg.r0.toByte ∧
      s.pc + 2 = s.getReg .r7 - 1 := by decide
theorem witness_FetchSeesThePushedByte_decodes : decode ([0x01, 0x00, 0x00] : List Byte) = .ok (.hlt, [0, 0]) := rfl

end Sys2Proof.Tests
end

/-! PROOFS of the family 10_state.md. First the converses of `exec_cases` and `step_cases`, which say when each of their
cases comes about; then what another value in FL changes, and the statements themselves. -/

namespace Sys2Proof.Machine

/-! ### The converses of `exec_cases` and `step_cases` -/

/-- An instruction whose handler is one of `Handled` answers what the engine's completion makes of it. -/
theorem exec_of_handled {s u : State} {i : Instr} (h : Handled s i u) :
    exec i s = .next (u.complete i.opcode s.pc) := by
  cases h with
  | ldi a v => simp [execLdi, Instr.opcode]
  | prn a => simp [execPrn, Instr.opcode]
  | mul a b => simp [execMul, Instr.opcode]
  | add a b => simp [execAdd, Instr.opcode]
  | cmp a b hm => simp [execCmp, hm, Instr.opcode]
  | cmpJump a v hm => simp [execCmp, hm, Instr.opcode]
  | push a => simp [execPush, Instr.opcode]
  | pop a => simp [execPop, Instr.opcode]
  | call a ret hret => simp [execCall, hret, Instr.opcode]
  | ret => rfl
  | jmp a => simp [execJmp, Instr.opcode]
  | jeq a => simp [execJeq, Instr.opcode]
  | jne a => simp [execJne, Instr.opcode]

/-- No instruction stops the machine without a next state. -/
theorem exec_answers_next (i : Instr) (s : State) : ∃ t, exec i s = .next t := by
  cases i with
  | cmp r1 r2 => cases hm : s.config.cmpMode <;> exact ⟨_, by rw [exec_cmp, execCmp, hm]⟩
  | _ => exact ⟨_, rfl⟩

theorem call_toByte_wellFormed (mode : CmpMode) (a : Reg) : (Instr.call a.toByte).wellFormed mode = true := by
  simp [Instr.wellFormed, Instr.registerOperands, a.toByte_lt]

/-- A register operand of 8 or more faults with no other change, whatever the instruction (40_cycle.md R63). -/
theorem exec_of_not_wellFormed {s : State} {i : Instr} (hw : i.wellFormed s.config.cmpMode = false) :
    exec i s = .next (s.takeFault .invalidRegister s.pc) := by
  obtain ⟨t, h⟩ := exec_answers_next i s
  obtain ⟨rfl, -⟩ | ⟨-, rfl⟩ | ⟨⟨a, rfl⟩, -⟩ | ⟨hw', -⟩ := exec_cases h
  · exact absurd hw (by simp [Instr.wellFormed, Instr.registerOperands])
  · exact h
  · exact absurd hw (by simp [call_toByte_wellFormed])
  · exact absurd hw (by simp [hw'])

/-- A CALL whose return address leaves memory faults before any write (40_cycle.md R70 item 2). -/
theorem exec_call_of_not_fits {s : State} (a : Reg) (h : ¬ AddrFits s.config.addrMode s.pc 2) :
    exec (.call a.toByte) s = .next (s.takeFault .addressOutOfRange s.pc) := by
  simp [execCall, addrPlus_of_not_fits h]

theorem step_of_not_running {s : State} (h : s.status ≠ .running) : step s = .next s :=
  if_neg (mt s.isRunning_iff.mp h)

theorem step_of_fetch_error {s : State} {c : Cause} (hr : s.status = .running) (hf : s.fetch = .error c) :
    step s = .next (s.takeFault c s.pc) := by
  rw [step_of_running hr, hf]

theorem step_of_fetch_ok {s : State} {i : Instr} (hr : s.status = .running) (hf : s.fetch = .ok i) :
    step s = exec i s := by
  rw [step_of_running hr, hf]

/-! ### Another value in FL -/

/-- The state with FL replaced and everything else kept. -/
def State.withFl (s : State) (f : Byte) : State :=
  { s with fl := f }

variable (s : State) (f : Byte)

@[simp] theorem State.withFl_pc : (s.withFl f).pc = s.pc := rfl
@[simp] theorem State.withFl_config : (s.withFl f).config = s.config := rfl

theorem State.withFl_setPc (p : Addr) : (s.withFl f).setPc p = (s.setPc p).withFl f := rfl

theorem State.withFl_takeFault (c : Cause) (pc0 : Addr) :
    (s.withFl f).takeFault c pc0 = (s.takeFault c pc0).withFl f := rfl

theorem State.withFl_advance (pc0 : Addr) (k : Nat) :
    (s.withFl f).advance pc0 k = (s.advance pc0 k).withFl f := by
  simp only [State.advance, withFl_config, withFl_pc]
  cases addrPlus s.config.addrMode s.pc k with
  | some p => exact s.withFl_setPc f p
  | none => exact s.withFl_takeFault f .addressOutOfRange pc0

theorem State.withFl_complete (o : Opcode) (pc0 : Addr) :
    (s.withFl f).complete o pc0 = (s.complete o pc0).withFl f := by
  simp only [State.complete, withFl_config, withFl_advance]
  split <;> rfl

/-- Whether the jump is taken is an argument of the handler: the handler itself reads no flag. -/
theorem State.withFl_branch (o : Opcode) (taken : Bool) (r : Reg) :
    (s.withFl f).branch o taken r = (s.branch o taken r).withFl f := by
  cases taken with
  | true => rfl
  | false => cases h : ownsPc s.config.pcOwnerSet o <;> simp [State.branch, h, withFl_setPc]

variable {s} {t u : State} {i : Instr}

/-- What a handler does under another FL: the same but for FL, which keeps the value put in, or is what CMP writes without
reading it. Only the handlers of JEQ and JNE look at FL, at bit 0. -/
theorem Handled.withFl (h : Handled s i u)
    (hE : i.opcode = .jeq ∨ i.opcode = .jne → f.getLsbD 0 = s.fl.getLsbD 0) :
    ∃ g, Handled (s.withFl f) i (u.withFl g) ∧ (g = f ∨ (g = u.fl ∧ i.opcode = .cmp)) := by
  have sameE (hj : i.opcode = .jeq ∨ i.opcode = .jne) : (s.withFl f).flagE = s.flagE := hE hj
  cases h with
  | ldi a v => exact ⟨f, .ldi a v, .inl rfl⟩
  | prn a => exact ⟨f, .prn a, .inl rfl⟩
  | mul a b => exact ⟨f, .mul a b, .inl rfl⟩
  | add a b => exact ⟨f, .add a b, .inl rfl⟩
  | cmp a b hm => exact ⟨compareFlags (s.getReg a) (s.getReg b), .cmp a b hm, .inr ⟨rfl, rfl⟩⟩
  | cmpJump a v hm => exact ⟨f, .cmpJump a v hm, .inl rfl⟩
  | push a => exact ⟨f, .push a, .inl rfl⟩
  | pop a => exact ⟨f, .pop a, .inl rfl⟩
  | call a ret hret => exact ⟨f, .call a ret hret, .inl rfl⟩
  | ret => exact ⟨f, .ret, .inl rfl⟩
  | jmp a => exact ⟨f, .jmp a, .inl rfl⟩
  | jeq a =>
    refine ⟨f, ?_, .inl rfl⟩
    rw [← State.withFl_branch, ← sameE (.inl rfl)]
    exact .jeq a
  | jne a =>
    refine ⟨f, ?_, .inl rfl⟩
    rw [← State.withFl_branch, ← sameE (.inr rfl)]
    exact .jne a

/-- What an instruction does under another FL. -/
theorem exec_withFl (h : exec i s = .next t)
    (hE : i.opcode = .jeq ∨ i.opcode = .jne → f.getLsbD 0 = s.fl.getLsbD 0) :
    ∃ g, exec i (s.withFl f) = .next (t.withFl g) ∧ (g = f ∨ (g = t.fl ∧ i.opcode = .cmp)) := by
  obtain ⟨rfl, rfl⟩ | ⟨hw, rfl⟩ | ⟨⟨a, rfl⟩, hfit, rfl⟩ | ⟨-, u, hu, rfl⟩ := exec_cases h
  · exact ⟨f, rfl, .inl rfl⟩
  · exact ⟨f, exec_of_not_wellFormed hw, .inl rfl⟩
  · exact ⟨f, exec_call_of_not_fits a hfit, .inl rfl⟩
  · obtain ⟨g, hu', hg⟩ := hu.withFl f hE
    refine ⟨g, ?_, by simpa using hg⟩
    rw [exec_of_handled hu', State.withFl_complete, State.withFl_pc]

/-- What a step does under another FL; the opcode byte at pc says which instruction it runs. -/
theorem step_withFl (h : step s = .next t)
    (hE : s.mem.read s.pc = 0x55 ∨ s.mem.read s.pc = 0x56 → f.getLsbD 0 = s.fl.getLsbD 0) :
    ∃ g, step (s.withFl f) = .next (t.withFl g) ∧ (g = f ∨ (g = t.fl ∧ s.mem.read s.pc = 0xA7)) := by
  obtain ⟨hr, rfl⟩ | ⟨hr, c, hf, rfl⟩ | ⟨hr, i, hf, he⟩ := step_cases h
  · exact ⟨f, step_of_not_running hr, .inl rfl⟩
  · exact ⟨f, step_of_fetch_error (s := s.withFl f) hr hf, .inl rfl⟩
  · obtain ⟨hcode, -, -⟩ := State.fetch_ok hf
    have byte {o : Opcode} (ho : i.opcode = o) : s.mem.read s.pc = o.code := ho ▸ hcode
    obtain ⟨g, he', hg⟩ := exec_withFl f he fun hj => hE (hj.imp byte byte)
    exact ⟨g, (step_of_fetch_ok (s := s.withFl f) hr hf).trans he', hg.imp_right (And.imp_right byte)⟩

/-! ### The statements -/

/-- Settles O45: by the three cases of a step, and for an executed instruction by its handler's. -/
theorem onlyBitZeroOfFlagsIsRead : Obligations.OnlyBitZeroOfFlagsIsRead :=
  fun _ _ f h hE => step_withFl f h hE

/-- Settles O1: the reset state is a literal. -/
theorem stackPointerIsF4AtReset : Obligations.StackPointerIsF4AtReset :=
  ⟨fun _ _ => rfl, rfl⟩

end Sys2Proof.Machine

/-! PROOFS of the family 20_memory.md. What a step does over another memory: the fetch reads the instruction's own bytes, POP
and RET read the byte at SP, PUSH and CALL write the byte below SP, and nothing else reaches memory (R34). -/

namespace Sys2Proof

/-- An instruction is made of its opcode and of the operand bytes the opcode counts (30_encoding.md R46); another byte in
place of one it lacks makes no difference. -/
theorem Opcode.withOperands_congr (o : Opcode) {a a' b b' : Byte} (h1 : 1 ≤ operandCount o.code → a = a')
    (h2 : operandCount o.code = 2 → b = b') : o.withOperands a b = o.withOperands a' b' := by
  cases o with
  | hlt | ret => rfl
  | prn | push | pop | call | jmp | jeq | jne => obtain rfl := h1 (by decide); rfl
  | ldi | mul | add | cmp => rw [h1 (by decide), h2 (by decide)]

end Sys2Proof

namespace Sys2Proof.Machine

/-! ### Another memory -/

/-- The state with the memory replaced and everything else kept. -/
def State.withMem (s : State) (m : Memory) : State :=
  { s with mem := m }

/-- `m` holds the instruction bytes that a fetch in `s` reads: the opcode byte, and the operand bytes a legal opcode has. -/
structure FetchesAlike (s : State) (m : Memory) : Prop where
  opcode : m.read s.pc = s.mem.read s.pc
  operand1 : (Opcode.ofByte? (s.mem.read s.pc)).isSome = true → 1 ≤ operandCount (s.mem.read s.pc) →
    m.read (s.pc + 1) = s.mem.read (s.pc + 1)
  operand2 : (Opcode.ofByte? (s.mem.read s.pc)).isSome = true → operandCount (s.mem.read s.pc) = 2 →
    m.read (s.pc + 2) = s.mem.read (s.pc + 2)

/-- Two memories each stay as they are, or each take the same byte at the address `a`, which happens only under `p`. -/
def SameWrite (p : Prop) (a : Addr) (m₁ m₁' m₂ m₂' : Memory) : Prop :=
  (m₁' = m₁ ∧ m₂' = m₂) ∨ (p ∧ ∃ v : Byte, m₁' = m₁.write a v ∧ m₂' = m₂.write a v)

theorem SameWrite.unchanged {p : Prop} {a : Addr} {m₁ m₂ : Memory} : SameWrite p a m₁ m₁ m₂ m₂ :=
  .inl ⟨rfl, rfl⟩

theorem SameWrite.imp {p q : Prop} {a : Addr} {m₁ m₁' m₂ m₂' : Memory} (hpq : p → q) (h : SameWrite p a m₁ m₁' m₂ m₂') :
    SameWrite q a m₁ m₁' m₂ m₂' :=
  Or.imp_right (And.imp_left hpq) h

variable (s : State) (m : Memory)

@[simp] theorem State.withMem_pc : (s.withMem m).pc = s.pc := rfl
@[simp] theorem State.withMem_mem : (s.withMem m).mem = m := rfl
@[simp] theorem State.withMem_config : (s.withMem m).config = s.config := rfl

theorem State.withMem_setPc (p : Addr) : (s.withMem m).setPc p = (s.setPc p).withMem m := rfl

theorem State.withMem_takeFault (c : Cause) (pc0 : Addr) :
    (s.withMem m).takeFault c pc0 = (s.takeFault c pc0).withMem m := rfl

theorem State.withMem_advance (pc0 : Addr) (k : Nat) :
    (s.withMem m).advance pc0 k = (s.advance pc0 k).withMem m := by
  simp only [State.advance, withMem_config, withMem_pc]
  cases addrPlus s.config.addrMode s.pc k with
  | some p => exact s.withMem_setPc m p
  | none => exact s.withMem_takeFault m .addressOutOfRange pc0

theorem State.withMem_complete (o : Opcode) (pc0 : Addr) :
    (s.withMem m).complete o pc0 = (s.complete o pc0).withMem m := by
  simp only [State.complete, withMem_config, withMem_advance]
  split <;> rfl

theorem State.withMem_branch (o : Opcode) (taken : Bool) (r : Reg) :
    (s.withMem m).branch o taken r = (s.branch o taken r).withMem m := by
  cases taken with
  | true => rfl
  | false => cases h : ownsPc s.config.pcOwnerSet o <;> simp [State.branch, h, withMem_setPc]

variable {s m} {t u : State} {i : Instr}

/-- The fetch reads no byte but those of the instruction (20_memory.md R34, R36). -/
theorem FetchesAlike.fetch_eq (h : FetchesAlike s m) : (s.withMem m).fetch = s.fetch := by
  simp only [State.fetch_eq, State.withMem_pc, State.withMem_mem, State.withMem_config, h.opcode]
  cases ho : Opcode.ofByte? (s.mem.read s.pc) with
  | none => rfl
  | some o =>
    have hcode := Opcode.ofByte?_eq_some.mp ho
    have legal : (Opcode.ofByte? (s.mem.read s.pc)).isSome = true := by simp [ho]
    have operands := o.withOperands_congr (hcode ▸ h.operand1 legal) (hcode ▸ h.operand2 legal)
    simp only [operands]

/-- What a handler does over another memory: the same. Only POP's and RET's read a byte, the one at SP; only PUSH's and CALL's
write one, at the decremented SP, and it is not read from memory. -/
theorem Handled.withMem (h : Handled s i u) (hTop : i.opcode = .pop ∨ i.opcode = .ret → m.read s.sp = s.mem.read s.sp) :
    ∃ m', Handled (s.withMem m) i (u.withMem m') ∧
      SameWrite (i.opcode = .push ∨ i.opcode = .call) (s.sp - 1) s.mem u.mem m m' := by
  have sameTop (hp : i.opcode = .pop ∨ i.opcode = .ret) : (s.withMem m).top = s.top := hTop hp
  cases h with
  | ldi a v => exact ⟨m, .ldi a v, .unchanged⟩
  | prn a => exact ⟨m, .prn a, .unchanged⟩
  | mul a b => exact ⟨m, .mul a b, .unchanged⟩
  | add a b => exact ⟨m, .add a b, .unchanged⟩
  | cmp a b hm => exact ⟨m, .cmp a b hm, .unchanged⟩
  | cmpJump a v hm => exact ⟨m, .cmpJump a v hm, .unchanged⟩
  | push a => exact ⟨_, .push a, .inr ⟨.inl rfl, _, rfl, rfl⟩⟩
  | pop a =>
    refine ⟨m, ?_, .unchanged⟩
    rw [← sameTop (.inl rfl)]
    exact .pop a
  | call a ret hret => exact ⟨_, .call a ret hret, .inr ⟨.inr rfl, _, rfl, rfl⟩⟩
  | ret =>
    refine ⟨m, ?_, .unchanged⟩
    rw [← sameTop (.inr rfl)]
    exact .ret
  | jmp a => exact ⟨m, .jmp a, .unchanged⟩
  | jeq a =>
    refine ⟨m, s.withMem_branch m .jeq s.flagE a ▸ .jeq a, ?_⟩
    rw [State.branch_mem]
    exact .unchanged
  | jne a =>
    refine ⟨m, s.withMem_branch m .jne (!s.flagE) a ▸ .jne a, ?_⟩
    rw [State.branch_mem]
    exact .unchanged

/-- What an instruction does over another memory. -/
theorem exec_withMem (h : exec i s = .next t)
    (hTop : i.opcode = .pop ∨ i.opcode = .ret → m.read s.sp = s.mem.read s.sp) :
    ∃ m', exec i (s.withMem m) = .next (t.withMem m') ∧
      SameWrite (i.opcode = .push ∨ i.opcode = .call) (s.sp - 1) s.mem t.mem m m' := by
  obtain ⟨rfl, rfl⟩ | ⟨hw, rfl⟩ | ⟨⟨a, rfl⟩, hfit, rfl⟩ | ⟨-, u, hu, rfl⟩ := exec_cases h
  · exact ⟨m, rfl, .unchanged⟩
  · exact ⟨m, exec_of_not_wellFormed hw, .unchanged⟩
  · exact ⟨m, exec_call_of_not_fits a hfit, .unchanged⟩
  · obtain ⟨m', hu', hwrite⟩ := hu.withMem hTop
    refine ⟨m', ?_, by simpa using hwrite⟩
    rw [exec_of_handled hu', State.withMem_complete, State.withMem_pc]

/-- What a step does over another memory that has the bytes it reads; the opcode byte at pc says which instruction it runs. -/
theorem step_withMem (h : step s = .next t) (hFetch : FetchesAlike s m)
    (hTop : s.mem.read s.pc = 0x46 ∨ s.mem.read s.pc = 0x11 → m.read s.sp = s.mem.read s.sp) :
    ∃ m', step (s.withMem m) = .next (t.withMem m') ∧
      SameWrite (s.mem.read s.pc = 0x45 ∨ s.mem.read s.pc = 0x50) (s.sp - 1) s.mem t.mem m m' := by
  obtain ⟨hr, rfl⟩ | ⟨hr, c, hf, rfl⟩ | ⟨hr, i, hf, he⟩ := step_cases h
  · exact ⟨m, step_of_not_running hr, .unchanged⟩
  · exact ⟨m, step_of_fetch_error (s := s.withMem m) hr (hFetch.fetch_eq.trans hf), .unchanged⟩
  · obtain ⟨hcode, -, -⟩ := State.fetch_ok hf
    have byte {o : Opcode} (ho : i.opcode = o) : s.mem.read s.pc = o.code := ho ▸ hcode
    obtain ⟨m', he', hwrite⟩ := exec_withMem he fun hp => hTop (hp.imp byte byte)
    exact ⟨m', (step_of_fetch_ok (s := s.withMem m) hr (hFetch.fetch_eq.trans hf)).trans he',
      hwrite.imp (Or.imp byte byte)⟩

/-- A byte changes only by a PUSH or a CALL, at the decremented SP: what `step_withMem` says of the state's own memory. -/
theorem step_changes_mem (h : step s = .next t) {a : Addr} (hne : t.mem.read a ≠ s.mem.read a) :
    s.status = .running ∧ (s.mem.read s.pc = 0x45 ∨ s.mem.read s.pc = 0x50) ∧ a = s.sp - 1 := by
  have hr : s.status = .running := by
    by_contra hr
    obtain rfl : s = t := by simpa [step_of_not_running hr] using h
    exact hne rfl
  obtain ⟨_, -, ⟨e, -⟩ | ⟨hop, v, e, -⟩⟩ :=
    step_withMem (m := s.mem) h ⟨rfl, fun _ _ => rfl, fun _ _ => rfl⟩ fun _ => rfl
  · exact absurd (by rw [e]) hne
  · refine ⟨hr, hop, by_contra fun ha => hne ?_⟩
    rw [e, Memory.read_write_of_ne _ v ha]

/-! ### The statement -/

/-- Settles O48: by the three cases of a step over another memory, and for an executed instruction by its handler's. -/
theorem memoryAccessesAreTheListedOnes : Obligations.MemoryAccessesAreTheListedOnes :=
  ⟨fun _ _ _ h hne => step_changes_mem h hne,
    fun _ _ _ h hop h1 h2 hTop => step_withMem h ⟨hop, h1, h2⟩ hTop⟩

end Sys2Proof.Machine

/-! PROOFS of the family 30_encoding.md. The bytes that decode to an instruction are its encoding and what follows it, and the
opcode byte alone says how long that encoding is. -/

namespace Sys2Proof

/-! ### The opcode byte -/

/-- A byte selects an opcode exactly when it stands in the code column (30_encoding.md R51). -/
theorem Opcode.isSome_ofByte? {b : Byte} : (Opcode.ofByte? b).isSome = true ↔ b ∈ Opcode.all.map Opcode.code := by
  simp only [Option.isSome_iff_exists, List.mem_map, Opcode.ofByte?_eq_some, Opcode.mem_all, true_and, eq_comm (a := b)]

/-- The count is the byte without its six low bits (30_encoding.md R46). -/
theorem operandCount_eq_shiftRight (op : Byte) : operandCount op = (op >>> 6).toNat := by
  have hop : op.toNat >>> 6 < 2 ^ 2 := by
    rw [Nat.shiftRight_eq_div_pow]
    omega
  simp only [operandCount, BitVec.extractLsb'_toNat, BitVec.toNat_ushiftRight, Nat.mod_eq_of_lt hop]

theorem operandCount_code_le (o : Opcode) : operandCount o.code ≤ 2 := by
  cases o <;> decide

/-! ### The operand bytes -/

theorem Instr.length_operandBytes (i : Instr) : i.operandBytes.length = operandCount i.opcode.code := by
  rw [operandCount_code]
  cases i <;> rfl

theorem length_encode (i : Instr) : (encode i).length = 1 + operandCount i.opcode.code := by
  rw [encode, List.length_cons, i.length_operandBytes, Nat.add_comm]

/-- The operand bytes are taken off the head of the list, in order (40_cycle.md R62). -/
theorem takeOperands_eq_some {n : Nat} {bytes rest : List Byte} {a b : Byte}
    (h : takeOperands n bytes = some (a, b, rest)) : bytes = [a, b].take n ++ rest := by
  unfold takeOperands at h
  split at h <;> cases h <;> rfl

/-- Of the two operands an opcode is given, its instruction has as many as the opcode counts. -/
theorem Opcode.encode_withOperands (o : Opcode) (a b : Byte) :
    encode (o.withOperands a b) = o.code :: [a, b].take (operandCount o.code) := by
  rw [operandCount_code]
  cases o <;> rfl

/-- What decodes is the instruction's own encoding and what is left over. -/
theorem eq_encode_append_of_decode {bytes rest : List Byte} {i : Instr} (h : decode bytes = .ok (i, rest)) :
    bytes = encode i ++ rest := by
  cases bytes with
  | nil => cases h
  | cons op more =>
    rw [decode_cons] at h
    cases ho : Opcode.ofByte? op with
    | none => simp [ho] at h
    | some o =>
      obtain rfl := Opcode.ofByte?_eq_some.mp ho
      cases ht : takeOperands (operandCount o.code) more with
      | none => simp [ht] at h
      | some taken =>
        obtain ⟨rfl, rfl⟩ : o.withOperands taken.1 taken.2.1 = i ∧ taken.2.2 = rest := by simpa [ht] using h
        rw [o.encode_withOperands, List.cons_append, ← takeOperands_eq_some ht]

end Sys2Proof

namespace Sys2Proof.Machine

/-! ### The statements -/

/-- Settles O8: the opcode byte is the head of the instruction's encoding, whose length it counts. -/
theorem lengthIsReadFromTheOpcodeByte : Obligations.LengthIsReadFromTheOpcodeByte := by
  intro op more i rest h
  obtain ⟨rfl, hmore⟩ := List.cons.inj (eq_encode_append_of_decode h)
  rw [← operandCount_eq_shiftRight]
  exact ⟨operandCount_code_le i.opcode, i.length_operandBytes, hmore, length_encode i⟩

/-- Settles O7: the table's columns are computed, and `ofByte?` inverts the code column. -/
theorem thirteenOpcodesAndNoOther : Obligations.ThirteenOpcodesAndNoOther :=
  ⟨fun _ => Opcode.isSome_ofByte?, by decide, Opcode.ofByte?_code⟩

end Sys2Proof.Machine

/-! PROOFS of the family 40_cycle.md. How a step ends: with the fault of an illegal opcode byte, or halted by HLT, the one
instruction that halts. -/

namespace Sys2Proof

theorem Opcode.code_inj {o p : Opcode} : o.code = p.code ↔ o = p := by
  rw [← Opcode.ofByte?_eq_some, Opcode.ofByte?_code, Option.some_inj]

@[simp] theorem Instr.opcode_eq_hlt {i : Instr} : i.opcode = .hlt ↔ i = .hlt := by
  cases i <;> simp [Instr.opcode]

end Sys2Proof

namespace Sys2Proof.Machine

variable {s t u : State} {i : Instr}

/-! ### The fetch of an illegal byte and of HLT -/

/-- The opcode is checked before any operand byte is fetched (40_cycle.md R61). -/
theorem State.fetch_of_illegal (h : Opcode.ofByte? (s.mem.read s.pc) = none) : s.fetch = .error .unknownInstruction := by
  rw [State.fetch_eq, h]

/-- HLT has no operand byte, so its fetch cannot fault, not even at address 255. -/
theorem State.fetch_of_hlt (h : s.mem.read s.pc = Opcode.hlt.code) : s.fetch = .ok .hlt := by
  have fits : AddrFits s.config.addrMode s.pc (operandCount Opcode.hlt.code) := .inr (Nat.le_of_lt_succ s.pc.isLt)
  rw [State.fetch_eq, h, Opcode.ofByte?_code]
  exact if_pos fits

/-! ### Only HLT halts -/

/-- No handler sets the status or the fault record: that is left to HLT, to the checks before a handler and to the advance
after it. -/
theorem Handled.status_fault (h : Handled s i u) : u.status = s.status ∧ u.fault = s.fault := by
  cases h with
  | jeq a => exact ⟨s.branch_status .jeq s.flagE a, s.branch_fault .jeq s.flagE a⟩
  | jne a => exact ⟨s.branch_status .jne (!s.flagE) a, s.branch_fault .jne (!s.flagE) a⟩
  | _ => exact ⟨rfl, rfl⟩

theorem Handled.ne_hlt (h : Handled s i u) : i ≠ .hlt := by
  rintro rfl
  cases h

/-- An instruction executed in a running state is HLT, which halts, or another one, which does not. -/
theorem exec_halts_or_not (hr : s.status = .running) (h : exec i s = .next t) :
    (i = .hlt ∧ t = s.halt) ∨ (i ≠ .hlt ∧ t.status ≠ .halted) := by
  obtain hlt | ⟨hw, rfl⟩ | ⟨⟨a, rfl⟩, -, rfl⟩ | ⟨-, u, hu, rfl⟩ := exec_cases h
  · exact .inl hlt
  · refine .inr ⟨?_, by simp⟩
    rintro rfl
    exact absurd hw (by simp [Instr.wellFormed, Instr.registerOperands])
  · exact .inr ⟨by simp, by simp⟩
  · refine .inr ⟨hu.ne_hlt, ?_⟩
    obtain ⟨hs, -⟩ := hu.status_fault
    obtain ⟨e, -⟩ | ⟨-, e, -⟩ := u.complete_status i.opcode s.pc
    · simp [e, hs, hr]
    · simp [e]

/-- The same of a step, by the opcode byte at pc (40_cycle.md R65). -/
theorem step_halts_or_not (hr : s.status = .running) (h : step s = .next t) :
    (s.mem.read s.pc = Opcode.hlt.code ∧ t = s.halt) ∨ (s.mem.read s.pc ≠ Opcode.hlt.code ∧ t.status ≠ .halted) := by
  obtain ⟨hn, -⟩ | ⟨-, c, hf, rfl⟩ | ⟨-, i, hf, he⟩ := step_cases h
  · exact absurd hr hn
  · refine .inr ⟨fun hcode => ?_, by simp⟩
    cases hf.symm.trans (State.fetch_of_hlt hcode)
  · obtain ⟨hcode, -, -⟩ := State.fetch_ok hf
    rw [hcode, ne_eq, Opcode.code_inj, Instr.opcode_eq_hlt]
    exact exec_halts_or_not hr he

/-! ### The statements -/

/-- Settles O11: a byte outside the code column selects no opcode, so the fetch faults. -/
theorem illegalOpcodeFaults : Obligations.IllegalOpcodeFaults := by
  intro s hr hnot
  have illegal : Opcode.ofByte? (s.mem.read s.pc) = none :=
    Option.not_isSome_iff_eq_none.mp (mt Opcode.isSome_ofByte?.mp hnot)
  exact step_of_fetch_error hr (State.fetch_of_illegal illegal)

/-- Settles O16: HLT's byte at pc decides whether the step halts. -/
theorem onlyHltHalts : Obligations.OnlyHltHalts := by
  intro s t hr h
  obtain ⟨hcode, rfl⟩ | ⟨hcode, hs⟩ := step_halts_or_not hr h
  · exact ⟨iff_of_true rfl hcode, fun _ => rfl⟩
  · exact ⟨iff_of_false hs hcode, fun hs' => absurd hs' hs⟩

end Sys2Proof.Machine

/-! PROOFS of the family 41_load_output.md. First how an instruction ends once its handler is known, and which instruction a
step runs once the opcode byte is known; then LDI and PRN. -/

namespace Sys2Proof.Machine

variable {s u : State} {i : Instr} {mode : AddrMode} {a : Addr} {k n : Nat} {o : Opcode}

/-! ### Addresses -/

theorem addrFits_of_le (hkn : k ≤ n) (h : AddrFits mode a n) : AddrFits mode a k :=
  h.imp_right (Nat.add_le_add_left hkn _).trans

theorem not_addrFits (hm : mode = .fault) (h : 255 < a.toNat + k) : ¬ AddrFits mode a k := by
  subst hm
  exact not_or_intro (by decide) (Nat.not_le_of_lt h)

/-! ### The engine's advance after a handler -/

/-- The engine advances past all the bytes of the instruction (30_encoding.md R54). -/
theorem instrLength_opcode_code (i : Instr) : instrLength i.opcode.code = (encode i).length :=
  (length_encode i).symm

/-- The advance in memory, or wrapping (40_cycle.md R67). -/
theorem Handled.exec_of_fits (h : Handled s i u) (howns : ownsPc u.config.pcOwnerSet i.opcode = false)
    (hfits : AddrFits u.config.addrMode u.pc (encode i).length) :
    exec i s = .next (u.setPc (u.pc + BitVec.ofNat 8 (encode i).length)) := by
  rw [exec_of_handled h, State.complete, howns, instrLength_opcode_code, State.advance, addrPlus_of_fits hfits]
  rfl

/-- The advance past 255: the handler's effects stand, and pc stays as the handler left it (40_cycle.md R70 item 3). -/
theorem Handled.exec_of_not_fits (h : Handled s i u) (howns : ownsPc u.config.pcOwnerSet i.opcode = false)
    (hnot : ¬ AddrFits u.config.addrMode u.pc (encode i).length) :
    exec i s = .next (u.takeFault .addressOutOfRange s.pc) := by
  rw [exec_of_handled h, State.complete, howns, instrLength_opcode_code, State.advance, addrPlus_of_not_fits hnot]
  rfl

/-! ### The step at a known opcode byte -/

/-- The operand bytes are in memory, or wrap: the step runs the instruction they make (40_cycle.md R62). -/
theorem step_of_code (hr : s.status = .running) (hop : s.mem.read s.pc = o.code)
    (hfits : AddrFits s.config.addrMode s.pc (operandCount o.code)) :
    step s = exec (o.withOperands (s.mem.read (s.pc + 1)) (s.mem.read (s.pc + 2))) s := by
  apply step_of_fetch_ok hr
  rw [State.fetch_eq, hop, Opcode.ofByte?_code]
  exact if_pos hfits

/-- An operand byte is past 255: its fetch faults (40_cycle.md R70 item 1). -/
theorem step_of_code_of_not_fits (hr : s.status = .running) (hop : s.mem.read s.pc = o.code)
    (hnot : ¬ AddrFits s.config.addrMode s.pc (operandCount o.code)) :
    step s = .next (s.takeFault .addressOutOfRange s.pc) := by
  apply step_of_fetch_error hr
  rw [State.fetch_eq, hop, Opcode.ofByte?_code]
  exact if_neg hnot

theorem operandFetchFaultsFrom_code (o : Opcode) {first : Nat} (h : 255 < first + operandCount o.code) :
    OperandFetchFaultsFrom o.code first :=
  fun _ hr hm hfirst hop =>
    step_of_code_of_not_fits hr hop (not_addrFits hm (h.trans_le (Nat.add_le_add_right hfirst _)))

/-! ### LDI and PRN -/

theorem exec_ldi_of_fits (r : Reg) (v : Byte) (hfits : AddrFits s.config.addrMode s.pc 3) :
    exec (.ldi r.toByte v) s = .next { s with regs := s.regs.set r v, pc := s.pc + 3 } :=
  (Handled.ldi r v).exec_of_fits (ownsPc_eq_false _ (by simp [Instr.opcode])) hfits

theorem exec_prn_of_fits (r : Reg) (hfits : AddrFits s.config.addrMode s.pc 2) :
    exec (.prn r.toByte) s = .next { s with out := s.out ++ [s.regs.get r], pc := s.pc + 2 } :=
  (Handled.prn r).exec_of_fits (ownsPc_eq_false _ (by simp [Instr.opcode])) hfits

/-- Settles O19: the handler sets the register, the advance has room for three bytes or faults, and the fetch needs two
operand bytes. -/
theorem ldiLoadsItsImmediate : Obligations.LdiLoadsItsImmediate := by
  refine ⟨fun _ _ => rfl, fun _ => exec_ldi_of_fits, ?step, ?invalid, ?advance, operandFetchFaultsFrom_code .ldi (by decide)⟩
  case step =>
    intro s r hr hop hreg hfits
    calc step s
      _ = exec (.ldi (s.mem.read (s.pc + 1)) (s.mem.read (s.pc + 2))) s :=
        step_of_code (o := .ldi) hr hop (addrFits_of_le (by decide) hfits)
      _ = exec (.ldi r.toByte (s.mem.read (s.pc + 2))) s := by rw [hreg]
      _ = _ := exec_ldi_of_fits r _ hfits
  case invalid =>
    intro s b v hb
    rw [exec_ldi, execLdi, withReg_invalid hb]
  case advance =>
    intro s r v hm hpc
    have past255 : ¬ AddrFits s.config.addrMode s.pc 3 := not_addrFits hm (by rw [hpc]; decide)
    exact (Handled.ldi r v).exec_of_not_fits (ownsPc_eq_false _ (by simp [Instr.opcode])) past255

/-- Settles O20: the handler appends to the port, the advance has room for two bytes or faults, and the fetch needs one
operand byte. -/
theorem prnOutputsARegister : Obligations.PrnOutputsARegister := by
  refine ⟨fun _ => rfl, fun _ => exec_prn_of_fits, ?step, ?invalid, ?advance, operandFetchFaultsFrom_code .prn (by decide)⟩
  case step =>
    intro s r hr hop hreg hfits
    calc step s
      _ = exec (.prn (s.mem.read (s.pc + 1))) s :=
        step_of_code (o := .prn) hr hop (addrFits_of_le (by decide) hfits)
      _ = exec (.prn r.toByte) s := by rw [hreg]
      _ = _ := exec_prn_of_fits r hfits
  case invalid =>
    intro s b hb
    rw [exec_prn, execPrn, withReg_invalid hb]
  case advance =>
    intro s r hm hpc
    have past255 : ¬ AddrFits s.config.addrMode s.pc 2 := not_addrFits hm (by rw [hpc]; decide)
    exact (Handled.prn r).exec_of_not_fits (ownsPc_eq_false _ (by simp [Instr.opcode])) past255

end Sys2Proof.Machine

/-! PROOFS of the family 42_alu.md. ADD and MULTIPLY are each one register write; what a register write does is said first,
once for both. -/

namespace Sys2Proof.Machine

/-! ### A register write and its frame -/

@[simp] theorem State.getReg_setReg_self (s : State) (r : Reg) (v : Byte) : (s.setReg r v).getReg r = v :=
  RegFile.get_set_self s.regs r v

theorem State.getReg_setReg_of_ne (s : State) {r q : Reg} (v : Byte) (h : q ≠ r) :
    (s.setReg r v).getReg q = s.getReg q :=
  RegFile.get_set_of_ne s.regs v h

/-- Outside the register file a register write changes nothing. -/
theorem State.setReg_frame (s : State) (r : Reg) (v : Byte) :
    s.setReg r v = { s with regs := (s.setReg r v).regs } := rfl

/-! ### The ALU's ADD and MULTIPLY -/

/-- Settles O21: the register written holds the 8-bit sum, which is the exact sum modulo 256. -/
theorem aluAddIsModulo256 : Obligations.AluAddIsModulo256 := by
  intro s a b
  rw [State.aluAdd_eq]
  refine ⟨?sum, fun _ => s.getReg_setReg_of_ne _, s.setReg_frame a _⟩
  case sum => rw [State.getReg_setReg_self, BitVec.toNat_add]

/-- Settles O22: the register written holds the 8-bit product, which is the exact product modulo 256. -/
theorem aluMultiplyKeepsTheLowByte : Obligations.AluMultiplyKeepsTheLowByte := by
  intro s a b
  rw [State.aluMultiply_eq]
  refine ⟨?product, fun _ => s.getReg_setReg_of_ne _, s.setReg_frame a _⟩
  case product => rw [State.getReg_setReg_self, BitVec.toNat_mul]

end Sys2Proof.Machine

/-! PROOFS of the family 43_stack.md. The push primitive is a write of R7 and a write of one byte; the pop primitive is a
read and a write of R7. -/

namespace Sys2Proof.Machine

/-! ### A push and its frame -/

/-- A push writes R7 and one byte of memory; every other field stays (43_stack.md R83). -/
theorem State.pushWith_eq (s : State) (v : State → Byte) :
    s.pushWith v = { s.setReg .r7 (s.sp - 1) with
                     mem := s.mem.write (s.sp - 1) (v (s.setReg .r7 (s.sp - 1))) } := rfl

/-- Memory after a push: the byte at the new SP is the pushed one, and every other byte stays. -/
theorem State.read_pushWith (s : State) (v : State → Byte) (a : Addr) :
    (s.pushWith v).mem.read a = if a = s.sp - 1 then v (s.setReg .r7 (s.sp - 1)) else s.mem.read a := by
  rw [State.pushWith_mem, Memory.read_write]

/-! ### The statement -/

/-- Settles O28: a push is a write of R7 and a write at the new SP, whose reads the memory law gives; a pop is a read at SP
and a write of R7. -/
theorem stackPrimitivesMoveSpAndOneByte : Obligations.StackPrimitivesMoveSpAndOneByte := by
  refine ⟨fun s v => ⟨?push, ?read⟩, fun s => ⟨?top, ?drop⟩⟩
  case push => exact s.pushWith_eq _
  case read => exact s.read_pushWith _
  case top => rfl
  case drop => exact s.dropTop_eq

end Sys2Proof.Machine

/-! PROOFS of the family 44_control.md. RET and HLT have no operand byte, so at their opcode byte a step runs them wherever it
stands; and a run from a stopped state stays there. -/

namespace Sys2Proof.Machine

variable {s : State}

/-! ### Runs of several steps -/

theorem run_succ_of_step {M : Host.Core} {a b : M.State} (h : M.step a = .next b) (n : Nat) :
    M.run (n + 1) a = M.run n b := by
  rw [Host.Core.run, h]

/-- The engine does not advance a stopped state (40_cycle.md R59). -/
theorem run_of_not_running (h : s.status ≠ .running) (n : Nat) : Host.Core.run Sys2Proof.core n s = .next s := by
  induction n with
  | zero => rfl
  | succ n ih => exact (run_succ_of_step (M := Sys2Proof.core) (step_of_not_running h) n).trans ih

/-! ### RET -/

/-- RET is in `PC_OWNER_SET` under either value, so its handler's pc stands. -/
theorem exec_ret_eq (s : State) : exec .ret s = .next (s.setPc s.top).dropTop := by
  rw [exec_of_handled .ret, Instr.opcode, State.complete_ret]

/-- The fetch of an instruction without operand bytes fits at every address. -/
theorem step_of_ret (hr : s.status = .running) (hop : s.mem.read s.pc = Opcode.ret.code) : step s = exec .ret s :=
  step_of_code hr hop (.inr (Nat.le_of_lt_succ s.pc.isLt))

/-- Settles O32: the handler reads the top of the stack into pc and drops it, and the engine leaves its pc. -/
theorem retPopsThePc : Obligations.RetPopsThePc :=
  ⟨rfl, exec_ret_eq, fun _ => step_of_ret⟩

/-! ### HLT -/

theorem step_of_hlt (hr : s.status = .running) (hop : s.mem.read s.pc = Opcode.hlt.code) : step s = .next s.halt :=
  step_of_fetch_ok hr (State.fetch_of_hlt hop)

/-- Settles O36: the first step halts, and a run goes no further from there; that a halting step is at an HLT is O16. -/
theorem hltHaltsInPlace : Obligations.HltHaltsInPlace := by
  refine ⟨rfl, fun _ => rfl, ?run, ?only⟩
  case run =>
    intro s hr hop n
    have stopped : s.halt.status ≠ .running := by simp
    calc Host.Core.run Sys2Proof.core (n + 1) s
      _ = Host.Core.run Sys2Proof.core n s.halt := run_succ_of_step (M := Sys2Proof.core) (step_of_hlt hr hop) n
      _ = .next s.halt := run_of_not_running stopped n
  case only =>
    intro s t hr h hs
    obtain ⟨halts_iff, -⟩ := onlyHltHalts s t hr h
    exact halts_iff.mp hs

end Sys2Proof.Machine

/-! PROOFS of the family other, first part. What an instruction and a step leave of each field, derived once from
`exec_cases` and `step_cases`; the invariant, the frames and the statements about single fields follow from it. -/

namespace Sys2Proof

/-! ### Decoding and encoding -/

theorem decode_encode_append (i : Instr) (rest : List Byte) : decode (encode i ++ rest) = .ok (i, rest) := by
  simp only [encode, List.cons_append, decode_cons, Opcode.ofByte?_code, operandCount_code]
  cases i <;> rfl

theorem encode_injective : Function.Injective encode := by
  intro i j h
  have e : decode (encode i ++ []) = decode (encode j ++ []) := by rw [h]
  simpa only [decode_encode_append, Except.ok.injEq, Prod.mk.injEq, and_true] using e

/-- Settles O9: what decodes is an encoding and a rest, and an encoding decodes to its instruction. -/
theorem decodeAndEncodeAgree : Obligations.DecodeAndEncodeAgree := by
  intro bytes i rest
  constructor
  · exact eq_encode_append_of_decode
  · rintro rfl
    exact decode_encode_append i rest

/-! ### What an opcode says of its instruction -/

theorem Instr.opcode_eq_cmp {i : Instr} : i.opcode = .cmp ↔ ∃ b c, i = .cmp b c := by
  cases i <;> simp [Instr.opcode]

theorem Instr.opcode_eq_prn {i : Instr} : i.opcode = .prn ↔ ∃ b, i = .prn b := by
  cases i <;> simp [Instr.opcode]


/-- The bytes that name the registers an instruction writes: its first operand, the stack pointer, both or none. -/
def Instr.writtenRegisters : Instr → List Byte
  | .ldi r1 _ | .mul r1 _ | .add r1 _ => [r1]
  | .pop r1 => [r1, Machine.Reg.r7.toByte]
  | .push _ | .call _ | .ret => [Machine.Reg.r7.toByte]
  | .hlt | .prn _ | .cmp _ _ | .jmp _ | .jeq _ | .jne _ => []

end Sys2Proof

namespace Sys2Proof.Machine

variable {s t u : State} {i : Instr}

/-! ### The fields an instruction can write -/

/-- Two states agree on everything but pc, the status and the fault record. -/
structure SameData (s t : State) : Prop where
  regs : t.regs = s.regs
  fl : t.fl = s.fl
  out : t.out = s.out
  mem : t.mem = s.mem
  config : t.config = s.config

theorem SameData.refl (s : State) : SameData s s := ⟨rfl, rfl, rfl, rfl, rfl⟩

theorem sameData_takeFault (s : State) (c : Cause) (pc0 : Addr) : SameData s (s.takeFault c pc0) :=
  ⟨rfl, rfl, rfl, rfl, rfl⟩

theorem sameData_complete (u : State) (o : Opcode) (pc0 : Addr) : SameData u (u.complete o pc0) :=
  ⟨u.complete_regs o pc0, u.complete_fl o pc0, u.complete_out o pc0, u.complete_mem o pc0, u.complete_config o pc0⟩

/-- The registers, FL, the output port, the memory and the parameters are after an instruction what its handler made of
them, or as before. -/
theorem exec_data (h : exec i s = .next t) : SameData s t ∨ ∃ u, Handled s i u ∧ SameData u t := by
  obtain ⟨-, rfl⟩ | ⟨-, rfl⟩ | ⟨-, -, rfl⟩ | ⟨-, u, hu, rfl⟩ := exec_cases h
  · exact .inl ⟨rfl, rfl, rfl, rfl, rfl⟩
  · exact .inl (sameData_takeFault s _ _)
  · exact .inl (sameData_takeFault s _ _)
  · exact .inr ⟨u, hu, sameData_complete u _ _⟩

/-- The same of a step, which runs the instruction it fetches. -/
theorem step_data (h : step s = .next t) :
    SameData s t ∨ (s.status = .running ∧ ∃ i u, s.fetch = .ok i ∧ Handled s i u ∧ SameData u t) := by
  obtain ⟨-, rfl⟩ | ⟨-, c, -, rfl⟩ | ⟨hr, i, hf, he⟩ := step_cases h
  · exact .inl (.refl _)
  · exact .inl (sameData_takeFault s c _)
  · refine (exec_data he).imp_right ?_
    rintro ⟨u, hu, hd⟩
    exact ⟨hr, i, u, hf, hu, hd⟩

/-! ### The parameters -/

theorem Handled.config_eq (h : Handled s i u) : u.config = s.config := by
  cases h with
  | jeq a => exact s.branch_config .jeq s.flagE a
  | jne a => exact s.branch_config .jne (!s.flagE) a
  | _ => rfl

theorem exec_config (h : exec i s = .next t) : t.config = s.config := by
  obtain hd | ⟨u, hu, hd⟩ := exec_data h
  · exact hd.config
  · exact hd.config.trans hu.config_eq

/-- Settles O43: no handler writes the parameters. -/
theorem noStepChangesTheParameters : Obligations.NoStepChangesTheParameters := by
  intro s t h
  obtain hd | ⟨-, i, u, -, hu, hd⟩ := step_data h
  · exact hd.config
  · exact hd.config.trans hu.config_eq

/-! ### FL -/

theorem compareFlags_eq (a b : Byte) : compareFlags a b = 0x01 ∨ compareFlags a b = 0x02 ∨ compareFlags a b = 0x04 := by
  obtain ⟨-, e⟩ | ⟨-, e⟩ | ⟨-, e⟩ := compareFlags_cases a b
  · exact .inr (.inr e)
  · exact .inr (.inl e)
  · exact .inl e

/-- Only the handler of CMP under `CMP_MODE = compare` writes FL (10_state.md R15). -/
theorem Handled.fl_cases (h : Handled s i u) :
    u.fl = s.fl ∨
      (i.opcode = .cmp ∧ s.config.cmpMode = .compare ∧ (u.fl = 0x01 ∨ u.fl = 0x02 ∨ u.fl = 0x04)) := by
  cases h with
  | cmp a b hm => exact .inr ⟨rfl, hm, compareFlags_eq _ _⟩
  | jeq a => exact .inl (s.branch_fl .jeq s.flagE a)
  | jne a => exact .inl (s.branch_fl .jne (!s.flagE) a)
  | _ => exact .inl rfl

theorem exec_fl (h : exec i s = .next t) (hi : i.opcode ≠ .cmp ∨ s.config.cmpMode = .jumpBug) : t.fl = s.fl := by
  obtain hd | ⟨u, hu, hd⟩ := exec_data h
  · exact hd.fl
  · obtain e | ⟨hc, hm, -⟩ := hu.fl_cases
    · exact hd.fl.trans e
    · obtain hi | hi := hi
      · exact absurd hc hi
      · cases hm.symm.trans hi

/-- A step that changes FL runs a CMP under `CMP_MODE = compare`. -/
theorem step_fl_cases (h : step s = .next t) :
    t.fl = s.fl ∨ (s.status = .running ∧ s.mem.read s.pc = Opcode.cmp.code ∧ s.config.cmpMode = .compare ∧
      (t.fl = 0x01 ∨ t.fl = 0x02 ∨ t.fl = 0x04)) := by
  obtain hd | ⟨hr, i, u, hf, hu, hd⟩ := step_data h
  · exact .inl hd.fl
  · obtain ⟨hcode, -, -⟩ := State.fetch_ok hf
    rw [hd.fl]
    refine hu.fl_cases.imp_right ?_
    rintro ⟨hc, hm, hfl⟩
    exact ⟨hr, hc ▸ hcode, hm, hfl⟩

/-- Settles O44: FL is as before, or the step was a CMP. -/
theorem flagsChangeOnlyByCmp : Obligations.FlagsChangeOnlyByCmp :=
  fun _ _ h hne => (step_fl_cases h).resolve_left hne

/-! ### The output port -/

/-- Only PRN's handler writes the output port (10_state.md R19). -/
theorem Handled.out_cases (h : Handled s i u) :
    u.out = s.out ∨ ∃ r : Reg, i = .prn r.toByte ∧ u.out = s.out ++ [s.getReg r] := by
  cases h with
  | prn a => exact .inr ⟨a, rfl, rfl⟩
  | jeq a => exact .inl (s.branch_out .jeq s.flagE a)
  | jne a => exact .inl (s.branch_out .jne (!s.flagE) a)
  | _ => exact .inl rfl

theorem exec_out (h : exec i s = .next t) (hi : i.opcode ≠ .prn) : t.out = s.out := by
  obtain hd | ⟨u, hu, hd⟩ := exec_data h
  · exact hd.out
  · obtain e | ⟨r, rfl, -⟩ := hu.out_cases
    · exact hd.out.trans e
    · exact absurd rfl hi

/-- The bytes of a fetched PRN. -/
theorem State.fetch_prn {b : Byte} (h : s.fetch = .ok (.prn b)) :
    s.mem.read s.pc = Opcode.prn.code ∧ s.mem.read (s.pc + 1) = b := by
  obtain ⟨hcode, -, e⟩ := State.fetch_ok h
  exact ⟨hcode, (Instr.prn.inj e).symm⟩

/-- Settles O46: the port is as before, or the step ran a PRN of a register. -/
theorem outputGrowsOnlyByPrn : Obligations.OutputGrowsOnlyByPrn := by
  intro s t h hne
  obtain hd | ⟨hr, i, u, hf, hu, hd⟩ := step_data h
  · exact absurd hd.out hne
  · obtain e | ⟨r, rfl, e⟩ := hu.out_cases
    · exact absurd (hd.out.trans e) hne
    · obtain ⟨hcode, hbyte⟩ := State.fetch_prn hf
      exact ⟨hr, hcode, r, hbyte, hd.out.trans e⟩

/-! ### Memory -/

/-- Only the handlers of PUSH and CALL write memory, one byte below SP: `Handled.withMem` at the state's own memory. -/
theorem Handled.mem_cases (h : Handled s i u) :
    u.mem = s.mem ∨ ((i.opcode = .push ∨ i.opcode = .call) ∧ ∃ v : Byte, u.mem = s.mem.write (s.sp - 1) v) := by
  obtain ⟨_, -, ⟨e, -⟩ | ⟨hi, v, e, -⟩⟩ := h.withMem (m := s.mem) fun _ => rfl
  · exact .inl e
  · exact .inr ⟨hi, v, e⟩

theorem exec_mem_cases (h : exec i s = .next t) :
    t.mem = s.mem ∨ ((i.opcode = .push ∨ i.opcode = .call) ∧ ∃ v : Byte, t.mem = s.mem.write (s.sp - 1) v) := by
  obtain hd | ⟨u, hu, hd⟩ := exec_data h
  · exact .inl hd.mem
  · rw [hd.mem]
    exact hu.mem_cases

theorem exec_sameMemory (h : exec i s = .next t) (hi : i.opcode ≠ .push ∧ i.opcode ≠ .call) : SameMemory s t := by
  obtain e | ⟨hop, -⟩ := exec_mem_cases h
  · intro a
    rw [e]
  · exact absurd hop (not_or.mpr hi)

/-- An instruction writes no byte but the one at the decremented SP (20_memory.md R34). -/
theorem exec_read_of_ne (h : exec i s = .next t) {a : Addr} (ha : a ≠ s.sp - 1) : t.mem.read a = s.mem.read a := by
  obtain e | ⟨-, v, e⟩ := exec_mem_cases h
  · rw [e]
  · rw [e, Memory.read_write_of_ne _ v ha]

theorem step_mem_cases (h : step s = .next t) : t.mem = s.mem ∨ ∃ v : Byte, t.mem = s.mem.write (s.sp - 1) v := by
  obtain hd | ⟨-, i, u, -, hu, hd⟩ := step_data h
  · exact .inl hd.mem
  · rw [hd.mem]
    exact hu.mem_cases.imp_right And.right

/-! ### Registers -/

theorem Reg.toByte_inj {q r : Reg} : q.toByte = r.toByte ↔ q = r := by
  rw [← Reg.ofByte?_eq_some, Reg.ofByte?_toByte, Option.some_inj]

theorem Handled.getReg_eq (h : Handled s i u) {r : Reg} (hr : r.toByte ∉ i.writtenRegisters) :
    u.getReg r = s.getReg r := by
  cases h with
  | ldi a v | mul a b | add a b =>
    exact s.getReg_setReg_of_ne _ (by simpa [Instr.writtenRegisters, Reg.toByte_inj] using hr)
  | push a | call a ret hret | ret =>
    exact s.getReg_setReg_of_ne _ (by simpa [Instr.writtenRegisters, Reg.toByte_inj] using hr)
  | pop a =>
    obtain ⟨ha, h7⟩ : r ≠ a ∧ r ≠ .r7 := by simpa [Instr.writtenRegisters, Reg.toByte_inj] using hr
    rw [State.dropTop_eq, State.getReg_setReg_of_ne _ _ h7, State.getReg_setReg_of_ne _ _ ha]
  | jeq a => exact congrArg (·.get r) (s.branch_regs .jeq s.flagE a)
  | jne a => exact congrArg (·.get r) (s.branch_regs .jne (!s.flagE) a)
  | prn a | cmp a b hm | cmpJump a v hm | jmp a => rfl

theorem exec_getReg (h : exec i s = .next t) {r : Reg} (hr : r.toByte ∉ i.writtenRegisters) :
    t.getReg r = s.getReg r := by
  obtain hd | ⟨u, hu, hd⟩ := exec_data h
  · exact congrArg (·.get r) hd.regs
  · exact (congrArg (·.get r) hd.regs).trans (hu.getReg_eq hr)

theorem RegFile.ext_get {f g : RegFile} (h : ∀ r, f.get r = g.get r) : f = g := by
  cases f
  cases g
  congr
  exacts [h .r0, h .r1, h .r2, h .r3, h .r4, h .r5, h .r6, h .r7]

/-! ### The status and the fault record -/

/-- HLT halts; any other instruction leaves the status and the record, or takes a fault at its own address. -/
theorem exec_status (h : exec i s = .next t) : SameStatusOrFaulted s t ∨ (i = .hlt ∧ t = s.halt) := by
  obtain hlt | ⟨-, rfl⟩ | ⟨-, -, rfl⟩ | ⟨-, u, hu, rfl⟩ := exec_cases h
  · exact .inr hlt
  · exact .inl (.inr ⟨rfl, _, rfl⟩)
  · exact .inl (.inr ⟨rfl, _, rfl⟩)
  · refine .inl ((u.complete_status i.opcode s.pc).imp ?_ ?_)
    · obtain ⟨hs, hf⟩ := hu.status_fault
      exact fun ⟨es, ef⟩ => ⟨es.trans hs, ef.trans hf⟩
    · exact fun ⟨_, es, ef⟩ => ⟨es, _, ef⟩

theorem exec_status_of_ne_hlt (h : exec i s = .next t) (hi : i ≠ .hlt) : SameStatusOrFaulted s t :=
  (exec_status h).resolve_right fun ⟨e, _⟩ => hi e

theorem step_status (h : step s = .next t) : SameStatusOrFaulted s t ∨ (s.status = .running ∧ t = s.halt) := by
  obtain ⟨-, rfl⟩ | ⟨-, c, -, rfl⟩ | ⟨hr, i, -, he⟩ := step_cases h
  · exact .inl (.inl ⟨rfl, rfl⟩)
  · exact .inl (.inr ⟨rfl, c, rfl⟩)
  · exact (exec_status he).imp_right fun ⟨_, e⟩ => ⟨hr, e⟩

/-! ### The invariant -/

theorem step_keeps_wf (h : step s = .next t) (hwf : s.mem.wf = true) : t.mem.wf = true := by
  obtain e | ⟨v, e⟩ := step_mem_cases h
  · rw [e, hwf]
  · rw [e]
    exact Memory.wf_write _ _ v hwf

theorem step_keeps_flagsLegal (h : step s = .next t) (hfl : s.FlagsLegal) : t.FlagsLegal := by
  obtain e | ⟨-, -, -, e⟩ := step_fl_cases h
  · rwa [State.FlagsLegal, e]
  · exact .inr e

theorem step_keeps_recordLegal (h : step s = .next t) (hrec : s.RecordLegal) : t.RecordLegal := by
  obtain (⟨es, ef⟩ | ⟨es, c, ef⟩) | ⟨hr, rfl⟩ := step_status h
  · rwa [State.RecordLegal, es, ef]
  · simp [State.RecordLegal, es, ef]
  · have noRecord : ¬ s.fault.isSome = true := by simp [hrec, hr]
    exact iff_of_false noRecord (by simp)

/-- Settles O42: the step keeps each clause. -/
theorem everyStepKeepsTheInvariant : Obligations.EveryStepKeepsTheInvariant := by
  rintro s t ⟨hwf, hfl, hrec⟩ h
  exact ⟨step_keeps_wf h hwf, step_keeps_flagsLegal h hfl, step_keeps_recordLegal h hrec⟩

/-! ### The frames -/

/-- What an instruction other than CMP, PRN and HLT leaves unchanged, apart from memory. -/
theorem exec_frame (h : exec i s = .next t) (hi : i.opcode ∉ [Opcode.cmp, .prn, .hlt]) :
    (∀ r : Reg, r.toByte ∉ i.writtenRegisters → t.getReg r = s.getReg r) ∧ t.fl = s.fl ∧ t.out = s.out ∧
      t.config = s.config ∧ SameStatusOrFaulted s t := by
  obtain ⟨hcmp, hprn, hhlt⟩ : i.opcode ≠ .cmp ∧ i.opcode ≠ .prn ∧ i ≠ .hlt := by simpa using hi
  exact ⟨fun _ => exec_getReg h, exec_fl h (.inl hcmp), exec_out h hprn, exec_config h, exec_status_of_ne_hlt h hhlt⟩

/-- Settles O37: none of the three writes a register but the one of its first operand, and none reaches memory. -/
theorem ldiAddMulFrame : Obligations.LdiAddMulFrame := by
  intro s t b c h
  have frame {i : Instr} (h : exec i s = .next t) (hw : i.writtenRegisters = [b])
      (hi : i.opcode ∈ [Opcode.ldi, .add, .mul]) :
      (∀ r : Reg, r.toByte ≠ b → t.getReg r = s.getReg r) ∧ t.fl = s.fl ∧ t.out = s.out ∧ t.config = s.config ∧
        SameMemory s t ∧ SameStatusOrFaulted s t := by
    obtain ⟨hreg, hfl, hout, hconfig, hstatus⟩ := exec_frame h (by revert hi; cases i.opcode <;> decide)
    have hmem : SameMemory s t := exec_sameMemory h (by revert hi; cases i.opcode <;> decide)
    exact ⟨fun r hr => hreg r (by simpa [hw] using hr), hfl, hout, hconfig, hmem, hstatus⟩
  obtain h | h | h := h
  · exact frame h rfl (by simp [Instr.opcode])
  · exact frame h rfl (by simp [Instr.opcode])
  · exact frame h rfl (by simp [Instr.opcode])

/-- Settles O38: the six write no register and no memory, so only CMP's FL, PRN's port and HLT's status are left. -/
theorem instructionsThatWriteNoRegisterFrame : Obligations.InstructionsThatWriteNoRegisterFrame := by
  intro s t i hi h
  have hw : i.writtenRegisters = [] := by
    obtain ⟨_, rfl⟩ | ⟨_, _, rfl⟩ | ⟨_, rfl⟩ | ⟨_, rfl⟩ | ⟨_, rfl⟩ | rfl := hi <;> rfl
  have hop : i.opcode ≠ .push ∧ i.opcode ≠ .call := by
    obtain ⟨_, rfl⟩ | ⟨_, _, rfl⟩ | ⟨_, rfl⟩ | ⟨_, rfl⟩ | ⟨_, rfl⟩ | rfl := hi <;> simp [Instr.opcode]
  have hcmp : (¬ ∃ b c, i = .cmp b c) → i.opcode ≠ .cmp := mt Instr.opcode_eq_cmp.mp
  have hprn : (¬ ∃ b, i = .prn b) → i.opcode ≠ .prn := mt Instr.opcode_eq_prn.mp
  refine ⟨RegFile.ext_get fun r => exec_getReg h (by simp [hw]), exec_sameMemory h hop, exec_config h,
    fun hc => exec_fl h (hc.imp_left hcmp), fun hp => exec_out h (hprn hp), exec_status_of_ne_hlt h, ?_⟩
  rintro rfl
  cases h
  exact ⟨rfl, rfl⟩

/-- Settles O39: the two write SP and the byte at the decremented SP. -/
theorem pushCallFrame : Obligations.PushCallFrame := by
  intro s t b h
  have frame {i : Instr} (h : exec i s = .next t) (hw : i.writtenRegisters = [Reg.r7.toByte])
      (hi : i.opcode ∈ [Opcode.push, .call]) :
      (∀ r : Reg, r ≠ .r7 → t.getReg r = s.getReg r) ∧ t.fl = s.fl ∧ t.out = s.out ∧ t.config = s.config ∧
        (∀ a : Addr, a ≠ s.getReg .r7 - 1 → t.mem.read a = s.mem.read a) ∧ SameStatusOrFaulted s t := by
    obtain ⟨hreg, hfl, hout, hconfig, hstatus⟩ := exec_frame h (by revert hi; cases i.opcode <;> decide)
    exact ⟨fun r hr => hreg r (by simpa [hw, Reg.toByte_inj] using hr), hfl, hout, hconfig, fun _ => exec_read_of_ne h,
      hstatus⟩
  obtain h | h := h
  · exact frame h rfl (by simp [Instr.opcode])
  · exact frame h rfl (by simp [Instr.opcode])

/-- Settles O40: POP writes SP and its operand, RET writes SP, and neither writes memory; RET's handler cannot fault. -/
theorem popRetFrame : Obligations.PopRetFrame := by
  constructor
  · intro s t b h
    obtain ⟨hreg, hfl, hout, hconfig, hstatus⟩ := exec_frame h (by simp [Instr.opcode])
    have hmem : SameMemory s t := exec_sameMemory h (by simp [Instr.opcode])
    exact ⟨fun r h7 hb => hreg r (by simp [Instr.writtenRegisters, Reg.toByte_inj, h7, hb]), hfl, hout, hconfig,
      hmem, hstatus⟩
  · intro s t h
    rw [exec_ret_eq] at h
    cases h
    exact ⟨fun r h7 => State.getReg_setReg_of_ne _ _ h7, rfl, rfl, rfl, fun _ => rfl, rfl, rfl⟩

end Sys2Proof.Machine

/-! PROOFS of the family other, second part. The output port is read by nothing; then the step: how it fetches, when it
faults, and where it leaves pc. -/

namespace Sys2Proof.Machine

/-! ### More bytes in the output port -/

/-- The state with bytes put before those the output port holds. -/
def State.withEarlier (s : State) (earlier : List Byte) : State :=
  { s with out := earlier ++ s.out }

section Earlier

variable (s : State) (earlier : List Byte)

@[simp] theorem State.withEarlier_pc : (s.withEarlier earlier).pc = s.pc := rfl
@[simp] theorem State.withEarlier_config : (s.withEarlier earlier).config = s.config := rfl

theorem State.withEarlier_output (v : Byte) :
    (s.withEarlier earlier).output v = (s.output v).withEarlier earlier := by
  simp only [State.withEarlier, State.output, List.append_assoc]

theorem State.withEarlier_setPc (p : Addr) :
    (s.withEarlier earlier).setPc p = (s.setPc p).withEarlier earlier := rfl

theorem State.withEarlier_advance (pc0 : Addr) (k : Nat) :
    (s.withEarlier earlier).advance pc0 k = (s.advance pc0 k).withEarlier earlier := by
  simp only [State.advance, withEarlier_config, withEarlier_pc]
  cases addrPlus s.config.addrMode s.pc k <;> rfl

theorem State.withEarlier_complete (o : Opcode) (pc0 : Addr) :
    (s.withEarlier earlier).complete o pc0 = (s.complete o pc0).withEarlier earlier := by
  simp only [State.complete, withEarlier_config, withEarlier_advance]
  split <;> rfl

theorem State.withEarlier_branch (o : Opcode) (taken : Bool) (r : Reg) :
    (s.withEarlier earlier).branch o taken r = (s.branch o taken r).withEarlier earlier := by
  cases taken with
  | true => rfl
  | false => cases h : ownsPc s.config.pcOwnerSet o <;> simp [State.branch, h, withEarlier_setPc]

variable {s} {t u : State} {i : Instr}

/-- No handler reads the output port: PRN's appends to it, and the others leave it. -/
theorem Handled.withEarlier (h : Handled s i u) : Handled (s.withEarlier earlier) i (u.withEarlier earlier) := by
  cases h with
  | ldi a v => exact .ldi a v
  | prn a => exact s.withEarlier_output earlier _ ▸ .prn a
  | mul a b => exact .mul a b
  | add a b => exact .add a b
  | cmp a b hm => exact .cmp a b hm
  | cmpJump a v hm => exact .cmpJump a v hm
  | push a => exact .push a
  | pop a => exact .pop a
  | call a ret hret => exact .call a ret hret
  | ret => exact .ret
  | jmp a => exact .jmp a
  | jeq a => exact s.withEarlier_branch earlier .jeq s.flagE a ▸ .jeq a
  | jne a => exact s.withEarlier_branch earlier .jne (!s.flagE) a ▸ .jne a

theorem exec_withEarlier (h : exec i s = .next t) :
    exec i (s.withEarlier earlier) = .next (t.withEarlier earlier) := by
  obtain ⟨rfl, rfl⟩ | ⟨hw, rfl⟩ | ⟨⟨a, rfl⟩, hfit, rfl⟩ | ⟨-, u, hu, rfl⟩ := exec_cases h
  · rfl
  · exact exec_of_not_wellFormed (s := s.withEarlier earlier) hw
  · exact exec_call_of_not_fits (s := s.withEarlier earlier) a hfit
  · rw [exec_of_handled (hu.withEarlier earlier), State.withEarlier_complete, State.withEarlier_pc]

theorem step_withEarlier (h : step s = .next t) :
    step (s.withEarlier earlier) = .next (t.withEarlier earlier) := by
  obtain ⟨hr, rfl⟩ | ⟨hr, c, hf, rfl⟩ | ⟨hr, i, hf, he⟩ := step_cases h
  · exact step_of_not_running hr
  · exact step_of_fetch_error (s := s.withEarlier earlier) hr hf
  · exact (step_of_fetch_ok (s := s.withEarlier earlier) hr hf).trans (exec_withEarlier earlier he)

end Earlier

/-- Settles O47: by the three cases of a step, and for an executed instruction by its handler's. -/
theorem nothingReadsTheOutputPort : Obligations.NothingReadsTheOutputPort :=
  fun _ _ earlier h => step_withEarlier earlier h

variable {s t u : State} {i : Instr} {rest : List Byte}

/-! ### The fetch of decoded bytes -/

/-- A fetch is a decoding of the three bytes at pc where all three are in memory or wrap. -/
theorem State.fetch_ok_iff_decode (hfits : AddrFits s.config.addrMode s.pc 2) :
    s.fetch = .ok i ↔
      ∃ rest, decode [s.mem.read s.pc, s.mem.read (s.pc + 1), s.mem.read (s.pc + 2)] = .ok (i, rest) := by
  rw [State.fetch, s.fetchBytes_of_fits hfits]
  cases decode [s.mem.read s.pc, s.mem.read (s.pc + 1), s.mem.read (s.pc + 2)] with
  | ok p => simp [Prod.ext_iff]
  | error e => cases e <;> simp

/-- The instruction of an opcode byte and two more bytes is the one they decode to. -/
theorem withOperands_of_decode {op a b : Byte} (h : decode [op, a, b] = .ok (i, rest)) :
    op = i.opcode.code ∧ i.opcode.withOperands a b = i := by
  obtain ⟨rfl, (hmore : [a, b] = i.operandBytes ++ rest)⟩ := List.cons.inj (eq_encode_append_of_decode h)
  refine ⟨rfl, encode_injective ?_⟩
  rw [Opcode.encode_withOperands, ← i.length_operandBytes, hmore, List.take_left]
  rfl

/-- Settles O10: the three bytes hold the opcode's own operands. -/
theorem stepRunsTheDecodedInstruction : Obligations.StepRunsTheDecodedInstruction := by
  intro s i rest hr hdecode hfits
  obtain ⟨hop, hoperands⟩ := withOperands_of_decode hdecode
  rw [i.length_operandBytes] at hfits
  rw [step_of_code hr hop hfits, hoperands]

/-! ### Faults -/

/-- Settles O13: the register check of every instruction. -/
theorem illFormedInstructionsFault : Obligations.IllFormedInstructionsFault :=
  fun _ _ hw => exec_of_not_wellFormed hw

/-- Settles O14: the operand fetch does not fit. -/
theorem operandFetchPast255Faults : Obligations.OperandFetchPast255Faults :=
  fun _ _ hr hm hop hpast => step_of_code_of_not_fits hr hop (not_addrFits hm hpast)

/-- Settles O15: a step is the state itself, a fault or an instruction. -/
theorem everyStepAnswersANextState : Obligations.EveryStepAnswersANextState := by
  refine ⟨fun s => ?_, exec_answers_next⟩
  by_cases hr : s.status = .running
  · cases hf : s.fetch with
    | ok i =>
      rw [step_of_fetch_ok hr hf]
      exact exec_answers_next i s
    | error c => exact ⟨_, step_of_fetch_error hr hf⟩
  · exact ⟨s, step_of_not_running hr⟩

theorem fault_of_not_addrFits {mode : AddrMode} {a : Addr} {k : Nat} (h : ¬ AddrFits mode a k) : mode = .fault := by
  cases mode with
  | wrap => exact absurd (.inl rfl) h
  | fault => rfl

/-- An instruction that faults in a running state is ill-formed, or an address of its return or advance is past 255. -/
theorem exec_faulted_cases (hr : s.status = .running) (h : exec i s = .next t) (hs : t.status = .faulted) :
    (i.wellFormed s.config.cmpMode = false ∧ t = s.takeFault .invalidRegister s.pc) ∨
      (s.config.addrMode = .fault ∧ t.fault = some { cause := .addressOutOfRange, address := s.pc }) := by
  obtain ⟨-, rfl⟩ | hill | ⟨-, hnot, rfl⟩ | ⟨-, u, hu, rfl⟩ := exec_cases h
  · simp at hs
  · exact .inl hill
  · exact .inr ⟨fault_of_not_addrFits hnot, rfl⟩
  · obtain ⟨e, -⟩ | ⟨hm, -, hrec⟩ := u.complete_status i.opcode s.pc
    · simp [e, hu.status_fault, hr] at hs
    · exact .inr ⟨hu.config_eq ▸ hm, hrec⟩

/-- A running step that faults is at an illegal opcode byte, runs an ill-formed instruction, or an address is past 255. -/
theorem step_faulted_cases (hr : s.status = .running) (h : step s = .next t) (hs : t.status = .faulted) :
    (Opcode.ofByte? (s.mem.read s.pc) = none ∧ t = s.takeFault .unknownInstruction s.pc) ∨
      (∃ i, s.fetch = .ok i ∧ i.wellFormed s.config.cmpMode = false ∧ t = s.takeFault .invalidRegister s.pc) ∨
      (s.config.addrMode = .fault ∧ t.fault = some { cause := .addressOutOfRange, address := s.pc }) := by
  obtain ⟨hn, -⟩ | ⟨-, c, hf, rfl⟩ | ⟨-, i, hf, he⟩ := step_cases h
  · exact absurd hr hn
  · obtain ⟨rfl, hbyte⟩ | ⟨rfl, hm, -⟩ := State.fetch_error hf
    · exact .inl ⟨hbyte, rfl⟩
    · exact .inr (.inr ⟨hm, rfl⟩)
  · obtain hill | hpast := exec_faulted_cases hr he hs
    · exact .inr (.inl ⟨i, hf, hill⟩)
    · exact .inr (.inr hpast)

/-- Settles O18: each of the three ways a step faults records its own address. -/
theorem faultsRecordTheInstructionAddress : Obligations.FaultsRecordTheInstructionAddress := by
  intro s t hr h hs
  obtain ⟨-, rfl⟩ | ⟨i, -, -, rfl⟩ | ⟨hm, hrec⟩ := step_faulted_cases hr h hs
  · exact ⟨.unknownInstruction, rfl, fun _ => rfl, by simp⟩
  · exact ⟨.invalidRegister, rfl, fun _ => rfl, by simp⟩
  · exact ⟨.addressOutOfRange, hrec, by simp, fun _ => hm⟩

/-- Settles O17: under wrap a step faults in the first two ways only, and in these it does. -/
theorem faultsUnderWrapAreExactAndPrecise : Obligations.FaultsUnderWrapAreExactAndPrecise := by
  intro s t hr hwrap h
  have ways (hs : t.status = .faulted) :
      (Opcode.ofByte? (s.mem.read s.pc) = none ∧ t = s.takeFault .unknownInstruction s.pc) ∨
        (∃ i, s.fetch = .ok i ∧ i.wellFormed s.config.cmpMode = false ∧ t = s.takeFault .invalidRegister s.pc) := by
    simpa [hwrap] using step_faulted_cases hr h hs
  refine ⟨⟨fun hs => ?only, ?faults⟩, fun hs => ?precise⟩
  case only =>
    refine (ways hs).imp And.left ?_
    rintro ⟨i, hf, hw, -⟩
    obtain ⟨rest, hdecode⟩ := (State.fetch_ok_iff_decode (.inl hwrap)).mp hf
    exact ⟨i, rest, hdecode, hw⟩
  case faults =>
    rintro (hbyte | ⟨i, rest, hdecode, hw⟩)
    · rw [step_of_fetch_error hr (State.fetch_of_illegal hbyte)] at h
      cases h
      rfl
    · have hf : s.fetch = .ok i := (State.fetch_ok_iff_decode (.inl hwrap)).mpr ⟨rest, hdecode⟩
      rw [step_of_fetch_ok hr hf, exec_of_not_wellFormed hw] at h
      cases h
      rfl
  case precise =>
    obtain ⟨hbyte, e⟩ | ⟨i, hf, -, e⟩ := ways hs
    · rw [if_pos hbyte, e]
    · obtain ⟨hcode, -, -⟩ := State.fetch_ok hf
      rw [if_neg (by simp [hcode]), e]

/-! ### The sequence -/

/-- The handlers that leave pc: all but those of the control transfers and of CMP under `CMP_MODE = jump_bug`. -/
theorem Handled.pc_eq (h : Handled s i u) (hi : i.opcode ∉ [Opcode.call, .ret, .jmp, .jeq, .jne])
    (hcmp : i.opcode = .cmp → s.config.cmpMode = .compare) : u.pc = s.pc := by
  cases h with
  | cmpJump a v hm => cases hm.symm.trans (hcmp rfl)
  | call a ret hret | ret | jmp a | jeq a | jne a => simp [Instr.opcode] at hi
  | _ => rfl

/-- After such a handler the engine goes on to the next instruction, or faults (40_cycle.md R67). -/
theorem exec_pc (h : exec i s = .next t) (hs : t.status ≠ .faulted)
    (hi : i.opcode ∉ [Opcode.call, .ret, .jmp, .jeq, .jne, .hlt])
    (hcmp : i.opcode = .cmp → s.config.cmpMode = .compare) :
    t.pc = s.pc + BitVec.ofNat 8 (instrLength i.opcode.code) := by
  obtain ⟨rfl, -⟩ | ⟨-, rfl⟩ | ⟨-, -, rfl⟩ | ⟨-, u, hu, rfl⟩ := exec_cases h
  · simp [Instr.opcode] at hi
  · exact absurd rfl hs
  · exact absurd rfl hs
  · have howner : i.opcode ∉ [Opcode.call, .ret, .jmp, .jeq, .jne] := fun hmem => hi (List.mem_of_mem_dropLast hmem)
    rw [u.complete_of_not_owner s.pc howner] at hs ⊢
    obtain ⟨-, e⟩ | ⟨-, e⟩ := u.advance_cases s.pc (instrLength i.opcode.code)
    · rw [e, State.setPc_pc, hu.pc_eq howner hcmp]
    · rw [e] at hs
      exact absurd rfl hs

/-- Settles O49: the opcode byte at pc is that of an instruction after which the engine advances. -/
theorem onlyTransfersLeaveTheSequence : Obligations.OnlyTransfersLeaveTheSequence := by
  intro s t hr h hs hop hcmp
  obtain ⟨hn, -⟩ | ⟨-, c, -, rfl⟩ | ⟨-, i, hf, he⟩ := step_cases h
  · exact absurd hr hn
  · exact absurd rfl hs
  · obtain ⟨hcode, -, -⟩ := State.fetch_ok hf
    rw [hcode] at hop hcmp ⊢
    refine exec_pc he hs (fun hmem => hop ?_) fun hi => hcmp (congrArg Opcode.code hi)
    exact List.mem_map_of_mem (f := Opcode.code) hmem

/-! ### The ALU's COMPARE -/

/-- Settles O23: one case for each outcome of the comparison. -/
theorem aluCompareSetsOneFlag : Obligations.AluCompareSetsOneFlag := by
  intro s a b
  simp only [State.flagG, State.flagL, State.flagE, State.aluCompare_fl]
  obtain ⟨hgt, e⟩ | ⟨hlt, e⟩ | ⟨heq, e⟩ := compareFlags_cases (s.getReg a) (s.getReg b)
  · rw [e]
    exact ⟨iff_of_true rfl hgt, iff_of_false (by decide) hgt.asymm, iff_of_false (by decide) hgt.ne', rfl, e ▸ rfl⟩
  · rw [e]
    exact ⟨iff_of_false (by decide) hlt.asymm, iff_of_true rfl hlt, iff_of_false (by decide) hlt.ne, rfl, e ▸ rfl⟩
  · rw [e]
    exact ⟨iff_of_false (by decide) heq.not_gt, iff_of_false (by decide) heq.not_lt, iff_of_true rfl heq, rfl, e ▸ rfl⟩

end Sys2Proof.Machine

/-! PROOFS of the family other, third part. Memory in its canonical form is determined by what it reads; the load interface;
and the states a run starts and stops in. -/

namespace Sys2Proof.Machine

/-! ### The canonical form -/

/-- Cells in the order of their addresses, strictly. -/
abbrev CellLt : Host.Cell → Host.Cell → Prop :=
  Prod.fst ⁻¹'o (· < ·)

theorem Memory.pairwise_of_wf {m : Memory} (h : m.wf = true) : m.Pairwise CellLt := by
  induction m with
  | nil => exact .nil
  | cons c rest ih =>
    obtain ⟨-, -, hlt, hrest⟩ := (Memory.wf_cons ..).mp h
    exact .cons hlt (ih hrest)

/-- A memory in canonical form lists exactly the bytes it reads that an unlisted address does not hold. -/
theorem Memory.mem_iff_lookup {m : Memory} (h : m.wf = true) (k : Nat) (v : Byte) :
    (k, v) ∈ m ↔ k < 256 ∧ v ≠ Memory.unlisted ∧ m.lookup k = v := by
  induction m with
  | nil =>
    simp only [Memory.lookup, List.not_mem_nil, false_iff]
    rintro ⟨-, hv, rfl⟩
    exact hv rfl
  | cons c rest ih =>
    obtain ⟨a, w⟩ := c
    obtain ⟨ha, hw, hlt, hrest⟩ := (Memory.wf_cons ..).mp h
    rw [List.mem_cons, ih hrest, Memory.lookup, Prod.mk.injEq]
    by_cases hk : a = k
    · subst hk
      have unlisted : Memory.lookup rest a = Memory.unlisted :=
        Memory.lookup_of_not_listed rest a fun c hc => (hlt c hc).ne'
      rw [unlisted, if_pos rfl]
      constructor
      · rintro (⟨-, rfl⟩ | ⟨-, hv, rfl⟩)
        · exact ⟨ha, hw, rfl⟩
        · exact absurd rfl hv
      · rintro ⟨-, -, rfl⟩
        exact .inl ⟨rfl, rfl⟩
    · simp [hk, Ne.symm hk]

/-- Settles O52: the two memories list the same cells, each in the order of their addresses. -/
theorem memoriesThatReadAlikeAreEqual : Obligations.MemoriesThatReadAlikeAreEqual := by
  intro m m' h h' hread
  refine (Memory.pairwise_of_wf h).eq_of_mem_iff (Memory.pairwise_of_wf h') ?_
  rintro ⟨k, v⟩
  rw [Memory.mem_iff_lookup h, Memory.mem_iff_lookup h']
  refine and_congr_right fun hk => ?_
  have alike : m.lookup k = m'.lookup k := by
    simpa [Memory.read, Nat.mod_eq_of_lt hk] using hread (BitVec.ofNat 8 k)
  rw [alike]

/-! ### The load interface -/

/-- Bytes written one after the other, no more than the address space has, are read back in their order. -/
theorem Memory.read_writeBytes (bytes : List Byte) : ∀ (m : Memory) (a b : Addr), bytes.length ≤ 256 →
    (m.writeBytes a bytes).read b = bytes.getD (b - a).toNat (m.read b) := by
  induction bytes with
  | nil => exact fun _ _ _ _ => rfl
  | cons v rest ih =>
    intro m a b hlen
    rw [List.length_cons] at hlen
    rw [Memory.writeBytes, ih _ _ _ (by omega)]
    by_cases hb : b = a
    · subst hb
      have last : (b - (b + 1)).toNat = 255 := by
        have : b - (b + 1) = 255 := by bv_omega
        rw [this]; rfl
      rw [last, List.getD_eq_default _ _ (by omega), Memory.read_write_self, BitVec.sub_self]
      rfl
    · have next : (b - a).toNat = (b - (a + 1)).toNat + 1 := by bv_omega
      rw [next, List.getD_cons_succ, Memory.read_write_of_ne _ _ hb]

theorem loadImage_eq {image : List Nat} (h : image.length ≤ 256 ∧ ∀ v ∈ image, v ≤ 255) :
    loadImage image = some (Memory.writeBytes [] 0 (image.map (BitVec.ofNat 8))) :=
  if_pos (by simpa using h)

theorem loadImage_refused {image : List Nat} (h : ¬ (image.length ≤ 256 ∧ ∀ v ∈ image, v ≤ 255)) :
    loadImage image = none :=
  if_neg (by simpa using h)

/-- The image stands in memory from address 0 on, and the rest is 0 (20_memory.md R35). -/
theorem read_loaded {image : List Nat} (hlen : image.length ≤ 256) (hval : ∀ v ∈ image, v ≤ 255) (a : Addr) :
    ((Memory.writeBytes [] 0 (image.map (BitVec.ofNat 8))).read a).toNat = image.getD a.toNat 0 := by
  have value : image.getD a.toNat 0 < 2 ^ 8 := by
    obtain hlt | hle := Nat.lt_or_ge a.toNat image.length
    · rw [List.getD_eq_getElem _ _ hlt]
      exact Nat.lt_succ_of_le (hval _ (List.getElem_mem hlt))
    · rw [List.getD_eq_default _ _ hle]
      decide
  rw [Memory.read_writeBytes _ _ _ _ (by rwa [List.length_map]), sub_zero]
  change ((image.map (BitVec.ofNat 8)).getD a.toNat (BitVec.ofNat 8 0)).toNat = _
  rw [List.getD_map, BitVec.toNat_ofNat, Nat.mod_eq_of_lt value]

/-- Settles O3: the load interface writes an image that fits, byte after byte, into a memory that lists nothing. -/
theorem powerOnLoadsTheImage : Obligations.PowerOnLoadsTheImage := by
  refine fun config image => ⟨fun h => ?loaded, fun h => ?refused⟩
  case loaded =>
    obtain ⟨hlen, hval⟩ := h
    refine ⟨_, ?_, Memory.wf_writeBytes _ [] 0 Memory.wf_nil, read_loaded hlen hval⟩
    rw [powerOn, loadImage_eq ⟨hlen, hval⟩, Option.map_some]
  case refused => rw [powerOn, loadImage_refused h, Option.map_none]

/-! ### Reset -/

theorem initial_inv (config : Config) {mem : Memory} (h : mem.wf = true) : (State.initial config mem).Inv :=
  ⟨h, .inl rfl, by simp [State.RecordLegal, State.initial]⟩

/-- Settles O41: the load interface answers only reset states, with a memory in canonical form. -/
theorem resetStatesAreLegal : Obligations.ResetStatesAreLegal := by
  refine ⟨initial_inv _ Memory.wf_nil, fun config image s h => ?_⟩
  obtain ⟨loaded, refused⟩ := powerOnLoadsTheImage config image
  by_cases hv : image.length ≤ 256 ∧ ∀ v ∈ image, v ≤ 255
  · obtain ⟨mem, e, hwf, -⟩ := loaded hv
    obtain rfl : State.initial config mem = s := Option.some.inj (e.symm.trans h)
    exact initial_inv config hwf
  · cases (refused hv).symm.trans h

/-- Settles O2: the reset state is a literal. -/
theorem resetSetsEveryField : Obligations.ResetSetsEveryField := by
  refine ⟨fun config mem => ⟨fun r hr => ?_, rfl, rfl, rfl, rfl, rfl, rfl, rfl, rfl⟩, rfl, rfl, fun _ => rfl⟩
  cases r with
  | r7 => exact absurd rfl hr
  | _ => rfl

/-- Settles O4: a run goes no further from a stopped state, and there the host's reset is not refused. -/
theorem onlyAResetLeavesAStoppedState : Obligations.OnlyAResetLeavesAStoppedState :=
  fun s h => ⟨run_of_not_running h, fun _ _ => if_neg (mt s.isRunning_iff.mp h)⟩

/-- Settles O5: the host's reset asks for the status first. -/
theorem noResetWhileRunning : Obligations.NoResetWhileRunning :=
  fun s _ _ h => if_pos (s.isRunning_iff.mpr h)

/-! ### Words and faults -/

/-- Settles O6: each word is an encoding, which decodes to its instruction. -/
theorem wordsOfTheOpcodeMapDecode : Obligations.WordsOfTheOpcodeMapDecode :=
  ⟨decode_encode_append .hlt [], decode_encode_append (.ldi 3 255) [], decode_encode_append (.prn 1) [],
    decode_encode_append (.mul 0 1) [], decode_encode_append (.add 2 3) [], decode_encode_append (.cmp 5 6) [],
    decode_encode_append (.push 7) [], decode_encode_append (.pop 4) [], decode_encode_append (.call 1) [],
    decode_encode_append .ret [], decode_encode_append (.jmp 1) [], decode_encode_append (.jeq 2) [],
    decode_encode_append (.jne 6) []⟩

/-- Settles O12: by the definition of a fault's taking. -/
theorem takingAFaultChangesStatusAndRecordOnly : Obligations.TakingAFaultChangesStatusAndRecordOnly :=
  fun _ _ _ => rfl

end Sys2Proof.Machine

/-! PROOFS of the family other, fourth part. Each instruction: its handler gives its result, `exec_of_fits` and
`exec_of_not_fits` the engine's advance and its fault, and the opcode's operand count the fault of its fetch. -/

namespace Sys2Proof.Machine

variable {s u : State} {i : Instr}

/-! ### The register check and the advance -/

/-- The register check fails at any register operand of 8 or more. -/
theorem exec_of_invalid {b : Byte} (hb : b ∈ i.registerOperands s.config.cmpMode) (h8 : 8 ≤ b.toNat) :
    exec i s = .next (s.takeFault .invalidRegister s.pc) := by
  apply exec_of_not_wellFormed
  rw [Instr.wellFormed, List.all_eq_false]
  exact ⟨b, hb, by simpa using h8⟩

/-- Either of two register operands of 8 or more fails the check. -/
theorem exec_of_invalid_pair {b c : Byte} (hi : i.registerOperands s.config.cmpMode = [b, c])
    (h : 8 ≤ b.toNat ∨ 8 ≤ c.toNat) : exec i s = .next (s.takeFault .invalidRegister s.pc) := by
  obtain hb | hc := h
  · exact exec_of_invalid (by simp [hi]) hb
  · exact exec_of_invalid (by simp [hi]) hc

/-- An address from which `k` more is past 255, by its value. -/
theorem not_addrFits_of_eq {mode : AddrMode} {a b : Addr} {k : Nat} (hm : mode = .fault) (ha : a = b)
    (hb : 255 < b.toNat + k) : ¬ AddrFits mode a k :=
  not_addrFits hm (ha ▸ hb)

/-! ### ADD and MUL -/

/-- Settles O24: the ALU's sum is the exact one modulo 256. -/
theorem addAddsRegisters : Obligations.AddAddsRegisters := by
  have sum (s : State) (a b : Reg) :
      BitVec.ofNat 8 ((s.regs.get a).toNat + (s.regs.get b).toNat) = s.regs.get a + s.regs.get b := rfl
  simp only [Obligations.AddAddsRegisters, sum]
  refine ⟨fun _ _ => rfl, fun s a b hfits => ?result, fun s b c h => exec_of_invalid_pair rfl h,
    fun s a b hm hpc => ?advance, operandFetchFaultsFrom_code .add (by decide)⟩
  case result => exact (Handled.add a b).exec_of_fits (ownsPc_eq_false _ (by simp [Instr.opcode])) hfits
  case advance =>
    exact (Handled.add a b).exec_of_not_fits (ownsPc_eq_false _ (by simp [Instr.opcode]))
      (not_addrFits_of_eq (k := 3) hm hpc (by decide))

/-- Settles O25: the ALU's product is the low byte of the exact one. -/
theorem mulMultipliesRegisters : Obligations.MulMultipliesRegisters := by
  have product (s : State) (a b : Reg) :
      BitVec.ofNat 8 ((s.regs.get a).toNat * (s.regs.get b).toNat) = s.regs.get a * s.regs.get b := rfl
  simp only [Obligations.MulMultipliesRegisters, product]
  refine ⟨fun _ _ => rfl, fun s a b hfits => ?result, fun s b c h => exec_of_invalid_pair rfl h,
    fun s a b hm hpc => ?advance, operandFetchFaultsFrom_code .mul (by decide)⟩
  case result => exact (Handled.mul a b).exec_of_fits (ownsPc_eq_false _ (by simp [Instr.opcode])) hfits
  case advance =>
    exact (Handled.mul a b).exec_of_not_fits (ownsPc_eq_false _ (by simp [Instr.opcode]))
      (not_addrFits_of_eq (k := 3) hm hpc (by decide))

/-! ### CMP -/

/-- COMPARE's flags as one choice (42_alu.md R77). -/
theorem compareFlags_eq_ite (a b : Byte) :
    compareFlags a b = if a.toNat > b.toNat then 0x04 else if a.toNat < b.toNat then 0x02 else 0x01 := by
  obtain ⟨hgt, e⟩ | ⟨hlt, e⟩ | ⟨heq, e⟩ := compareFlags_cases a b
  · rw [e, if_pos hgt]
  · rw [e, if_neg hlt.asymm, if_pos hlt]
  · rw [e, if_neg heq.not_gt, if_neg heq.not_lt]

/-- Settles O26: the handler writes the flags of the comparison. -/
theorem cmpComparesRegisters : Obligations.CmpComparesRegisters := by
  simp only [Obligations.CmpComparesRegisters, ← compareFlags_eq_ite]
  refine ⟨fun _ _ => rfl, fun s a b hm hfits => ?result, fun s b c hm h => exec_of_invalid_pair ?operands h,
    fun s a b hm hf hpc => ?advance, operandFetchFaultsFrom_code .cmp (by decide)⟩
  case result => exact (Handled.cmp a b hm).exec_of_fits (ownsPc_eq_false _ (by simp [Instr.opcode])) hfits
  case operands => rw [hm]; rfl
  case advance =>
    exact (Handled.cmp a b hm).exec_of_not_fits (ownsPc_eq_false _ (by simp [Instr.opcode]))
      (not_addrFits_of_eq (k := 3) hf hpc (by decide))

/-- Settles O27: the handler sets pc from the register, and the engine advances from there. -/
theorem cmpUnderJumpBugJumps : Obligations.CmpUnderJumpBugJumps := by
  refine ⟨fun s a c hm hfits => ?result, fun s b c hm h => exec_of_invalid ?operand h, fun s a c hm hf hpast => ?advance⟩
  case result => exact (Handled.cmpJump a c hm).exec_of_fits (ownsPc_eq_false _ (by simp [Instr.opcode])) hfits
  case operand => rw [hm]; exact .head _
  case advance =>
    exact (Handled.cmpJump a c hm).exec_of_not_fits (ownsPc_eq_false _ (by simp [Instr.opcode]))
      (not_addrFits hf (Nat.add_le_add_right hpast 3))

/-! ### PUSH -/

/-- PUSH's handler as an update of the state: the register is read after the decrement (decision D22). -/
theorem pushWith_getReg_eq (s : State) (r : Reg) :
    (s.pushWith fun t => t.getReg r) =
      { s with regs := s.regs.set .r7 (s.regs.get .r7 - 1),
               mem := s.mem.write (s.regs.get .r7 - 1) (if r = .r7 then s.regs.get .r7 - 1 else s.regs.get r) } := by
  rw [State.pushWith_eq, State.getReg_setReg]
  rfl

theorem exec_push_of_fits (r : Reg) (hfits : AddrFits s.config.addrMode s.pc 2) :
    exec (.push r.toByte) s =
      .next { s with regs := s.regs.set .r7 (s.regs.get .r7 - 1), pc := s.pc + 2,
                     mem := s.mem.write (s.regs.get .r7 - 1) (if r = .r7 then s.regs.get .r7 - 1 else s.regs.get r) } := by
  rw [(Handled.push r).exec_of_fits (ownsPc_eq_false _ (by simp [Instr.opcode])) hfits, pushWith_getReg_eq]
  rfl

/-- Settles O29: the push primitive, and the advance of two bytes. -/
theorem pushStoresARegister : Obligations.PushStoresARegister := by
  refine ⟨fun _ => rfl, fun s => exec_push_of_fits, fun s b => exec_of_invalid (.head _), fun s r hm hpc => ?advance,
    operandFetchFaultsFrom_code .push (by decide)⟩
  case advance =>
    rw [(Handled.push r).exec_of_not_fits (ownsPc_eq_false _ (by simp [Instr.opcode]))
      (not_addrFits_of_eq (k := 2) hm hpc (by decide)), pushWith_getReg_eq]
    rfl

/-! ### POP -/

theorem RegFile.set_set (f : RegFile) (r : Reg) (v w : Byte) : (f.set r v).set r w = f.set r w := by
  cases r <;> rfl

/-- POP's handler as an update of the state, for a register other than R7. -/
theorem pop_eq_of_ne {r : Reg} (hr : r ≠ .r7) :
    (s.setReg r s.top).dropTop =
      { s with regs := (s.regs.set r (s.mem.read (s.regs.get .r7))).set .r7 (s.regs.get .r7 + 1) } := by
  rw [State.dropTop_eq, State.sp_setReg, if_neg hr]
  rfl

/-- POP's handler for R7: the popped byte is incremented (decision D22). -/
theorem pop_r7_eq :
    (s.setReg .r7 s.top).dropTop = { s with regs := s.regs.set .r7 (s.mem.read (s.regs.get .r7) + 1) } := by
  rw [State.dropTop_eq, State.sp_setReg, if_pos rfl, ← RegFile.set_set]
  rfl

theorem exec_pop_of_fits (r : Reg) (hfits : AddrFits s.config.addrMode s.pc 2) :
    exec (.pop r.toByte) s = .next ((s.setReg r s.top).dropTop.setPc (s.pc + 2)) :=
  (Handled.pop r).exec_of_fits (ownsPc_eq_false _ (by simp [Instr.opcode])) hfits

theorem exec_pop_at_254 (r : Reg) (hm : s.config.addrMode = .fault) (hpc : s.pc = 254) :
    exec (.pop r.toByte) s = .next ((s.setReg r s.top).dropTop.takeFault .addressOutOfRange s.pc) :=
  (Handled.pop r).exec_of_not_fits (ownsPc_eq_false _ (by simp [Instr.opcode]))
    (not_addrFits_of_eq (k := 2) hm hpc (by decide))

/-- Settles O30: the register takes the top, SP is incremented, and the engine advances by two bytes. -/
theorem popLoadsARegister : Obligations.PopLoadsARegister := by
  refine ⟨fun _ => rfl, fun s r hr hfits => ?result, fun s hfits => ?resultR7, fun s b => exec_of_invalid (.head _),
    fun s r hr hm hpc => ?advance, fun s hm hpc => ?advanceR7, operandFetchFaultsFrom_code .pop (by decide)⟩
  case result => rw [exec_pop_of_fits r hfits, pop_eq_of_ne hr]; rfl
  case resultR7 => rw [exec_pop_of_fits .r7 hfits, pop_r7_eq]; rfl
  case advance => rw [exec_pop_at_254 r hm hpc, pop_eq_of_ne hr]; rfl
  case advanceR7 => rw [exec_pop_at_254 .r7 hm hpc, pop_r7_eq]; rfl

/-! ### CALL -/

/-- The engine does not advance after a CALL, and its target is read after the push (decision D21). -/
theorem exec_call_of_fits (r : Reg) (hfits : AddrFits s.config.addrMode s.pc 2) :
    exec (.call r.toByte) s =
      .next { s with regs := s.regs.set .r7 (s.regs.get .r7 - 1), mem := s.mem.write (s.regs.get .r7 - 1) (s.pc + 2),
                     pc := if r = .r7 then s.regs.get .r7 - 1 else s.regs.get r } := by
  rw [exec_of_handled (.call r _ (addrPlus_of_fits hfits)), Instr.opcode, State.complete_call, State.getReg_pushWith]
  rfl

/-- Settles O31: the push of the return address where it fits, a fault before any write where not. -/
theorem callPushesTheReturnAddress : Obligations.CallPushesTheReturnAddress :=
  ⟨fun _ => rfl, fun _ => exec_call_of_fits, fun _ _ => exec_of_invalid (.head _),
    fun _ r hm hpast => exec_call_of_not_fits r (not_addrFits hm (Nat.add_le_add_right hpast 2)),
    operandFetchFaultsFrom_code .call (by decide)⟩

/-! ### Jumps

A jump's handler sets pc; under the normative `PC_OWNER_SET` the engine then advances by 2. A conditional jump that is not
taken sets pc to what it is, or under the alternative `PC_OWNER_SET` to the next instruction. -/

section Jumps

variable {o : Opcode} {p : Addr} {r : Reg}

theorem instrLength_jump (ho : o ∈ [Opcode.jmp, .jeq, .jne]) : instrLength o.code = 2 := by
  revert ho
  cases o <;> decide

theorem ownsPc_callRet_jump (ho : o ∈ [Opcode.jmp, .jeq, .jne]) : ownsPc .callRet o = false := by
  revert ho
  cases o <;> decide

theorem ownsPc_callRetJumps_jump (ho : o ∈ [Opcode.jmp, .jeq, .jne]) : ownsPc .callRetJumps o = true := by
  revert ho
  cases o <;> decide

theorem branch_not_taken_of_callRet (ho : o ∈ [Opcode.jmp, .jeq, .jne]) (hset : s.config.pcOwnerSet = .callRet) :
    s.branch o false r = s.setPc s.pc := by
  rw [State.branch, hset, ownsPc_callRet_jump ho]
  rfl

theorem branch_not_taken_of_callRetJumps (ho : o ∈ [Opcode.jmp, .jeq, .jne])
    (hset : s.config.pcOwnerSet = .callRetJumps) : s.branch o false r = s.setPc (s.pc + 2) := by
  rw [State.branch, hset, ownsPc_callRetJumps_jump ho, instrLength_jump ho]
  rfl

variable (h : Handled s i (s.setPc p)) (hi : i.opcode ∈ [Opcode.jmp, .jeq, .jne])
include h hi

theorem exec_jump_of_fits (hset : s.config.pcOwnerSet = .callRet) (hfits : AddrFits s.config.addrMode p 2) :
    exec i s = .next { s with pc := p + 2 } := by
  have two : (encode i).length = 2 := (instrLength_opcode_code i).symm.trans (instrLength_jump hi)
  rw [h.exec_of_fits (by rw [State.setPc_config, hset, ownsPc_callRet_jump hi]) (by rwa [two]), two]
  rfl

theorem exec_jump_of_not_fits (hset : s.config.pcOwnerSet = .callRet) (hm : s.config.addrMode = .fault)
    (hpast : 254 ≤ p.toNat) : exec i s = .next ((s.setPc p).takeFault .addressOutOfRange s.pc) := by
  have two : (encode i).length = 2 := (instrLength_opcode_code i).symm.trans (instrLength_jump hi)
  have hnot : ¬ AddrFits s.config.addrMode p 2 := not_addrFits hm (Nat.add_le_add_right hpast 2)
  exact h.exec_of_not_fits (by rw [State.setPc_config, hset, ownsPc_callRet_jump hi]) (by rwa [two])

theorem exec_jump_of_owner (hset : s.config.pcOwnerSet = .callRetJumps) : exec i s = .next { s with pc := p } := by
  rw [exec_of_handled h, State.complete, State.setPc_config, hset, ownsPc_callRetJumps_jump hi]
  rfl

end Jumps

/-- Settles O33: JMP is a jump to its register. -/
theorem jmpJumpsThroughARegister : Obligations.JmpJumpsThroughARegister :=
  ⟨fun _ => rfl, fun _ r => exec_jump_of_fits (.jmp r) (.head _), fun _ r => exec_jump_of_owner (.jmp r) (.head _),
    fun _ _ => exec_of_invalid (.head _), fun _ r => exec_jump_of_not_fits (.jmp r) (.head _),
    operandFetchFaultsFrom_code .jmp (by decide)⟩

/-- A conditional jump's handler is that of a jump: to the register, or to where its not being taken leads. -/
theorem conditionalJump_follows {jump : Byte → Instr} {o : Opcode} {taken : State → Bool}
    (handled : ∀ s r, Handled s (jump (Reg.toByte r)) (s.branch o (taken s) r)) (hop : ∀ b, (jump b).opcode = o)
    (operand : ∀ mode b, (jump b).registerOperands mode = [b]) (ho : o ∈ [Opcode.jmp, .jeq, .jne]) :
    ConditionalJumpFollowsItsRule jump taken := by
  have isJump (b : Byte) : (jump b).opcode ∈ [Opcode.jmp, .jeq, .jne] := hop b ▸ ho
  have onTaken {s : State} (r : Reg) (ht : taken s = true) : Handled s (jump r.toByte) (s.setPc (s.regs.get r)) := by
    have h := handled s r
    rwa [ht] at h
  have onNotTaken {s : State} (r : Reg) (ht : taken s = false) (hset : s.config.pcOwnerSet = .callRet) :
      Handled s (jump r.toByte) (s.setPc s.pc) := by
    have h := handled s r
    rwa [ht, branch_not_taken_of_callRet ho hset] at h
  have onNotTakenOwner {s : State} (r : Reg) (ht : taken s = false) (hset : s.config.pcOwnerSet = .callRetJumps) :
      Handled s (jump r.toByte) (s.setPc (s.pc + 2)) := by
    have h := handled s r
    rwa [ht, branch_not_taken_of_callRetJumps ho hset] at h
  refine ⟨fun s r ht => exec_jump_of_fits (onTaken r ht) (isJump _),
    fun s r ht => exec_jump_of_owner (onTaken r ht) (isJump _), fun s r ht hfits => ?notTaken,
    fun s b h8 => exec_of_invalid (by rw [operand]; exact .head _) h8,
    fun s r ht => exec_jump_of_not_fits (onTaken r ht) (isJump _), fun s r ht hset hm hpc => ?notTakenAt254⟩
  case notTaken =>
    cases hset : s.config.pcOwnerSet with
    | callRet => exact exec_jump_of_fits (onNotTaken r ht hset) (isJump _) hset (hfits hset)
    | callRetJumps => exact exec_jump_of_owner (onNotTakenOwner r ht hset) (isJump _) hset
  case notTakenAt254 =>
    exact exec_jump_of_not_fits (onNotTaken r ht hset) (isJump _) hset hm (by rw [hpc]; decide)

/-- Settles O34: JEQ is the conditional jump on FL.E. -/
theorem jeqJumpsIfEqual : Obligations.JeqJumpsIfEqual :=
  ⟨fun _ => rfl, conditionalJump_follows (fun _ => .jeq) (fun _ => rfl) (fun _ _ => rfl) (by decide),
    operandFetchFaultsFrom_code .jeq (by decide)⟩

/-- Settles O35: JNE is the conditional jump on FL.E inverted. -/
theorem jneJumpsIfNotEqual : Obligations.JneJumpsIfNotEqual :=
  ⟨fun _ => rfl, conditionalJump_follows (fun _ => .jne) (fun _ => rfl) (fun _ _ => rfl) (by decide),
    operandFetchFaultsFrom_code .jne (by decide)⟩

/-! ### Two instructions in a row -/

/-- Settles O50: the popped byte is the one at the SP the push left, and the two moves of SP cancel. -/
theorem pushThenPopCarriesTheValue : Obligations.PushThenPopCarriesTheValue := by
  intro s a b ha hb hfits
  have fitsPush : AddrFits s.config.addrMode s.pc 2 := addrFits_of_le (by decide) hfits
  have fitsPop : AddrFits s.config.addrMode (s.pc + 2) 2 := hfits.imp_right fun h => by bv_omega
  refine ⟨_, _, exec_push_of_fits a fitsPush, exec_pop_of_fits b fitsPop, ?value, ?sp, ?pc⟩
  case value =>
    rw [pop_eq_of_ne hb]
    simp only [State.getReg, State.setPc_regs, RegFile.get_set_of_ne _ _ hb, RegFile.get_set_self,
      Memory.read_write_self, if_neg ha]
  case sp =>
    rw [pop_eq_of_ne hb]
    simp only [State.getReg, State.setPc_regs, RegFile.get_set_self, BitVec.sub_add_cancel]
  case pc =>
    show s.pc + 2 + 2 = s.pc + 4
    rw [add_assoc]
    rfl

/-- Settles O51: RET reads the return address CALL pushed. -/
theorem retReturnsBehindItsCall : Obligations.RetReturnsBehindItsCall := by
  intro s r hfits
  refine ⟨_, exec_call_of_fits r hfits, fun u hsp hbyte => ⟨_, exec_ret_eq u, ?pc, ?sp⟩⟩
  case pc =>
    have returned : u.top = s.pc + 2 := by simpa [State.top, State.sp, State.getReg] using hbyte
    exact returned
  case sp =>
    have decremented : u.sp = s.getReg .r7 - 1 := by simpa [State.sp, State.getReg] using hsp
    rw [State.dropTop_eq, State.getReg_setReg_self, State.sp_setPc, decremented, BitVec.sub_add_cancel]

/-- Settles O53: after the push memory holds the pushed byte in its place among the next instruction's. -/
theorem fetchSeesThePushedByte : Obligations.FetchSeesThePushedByte := by
  intro s a i rest hr hwrap hop hreg
  refine ⟨_, (step_of_code (o := .push) hr hop (.inl hwrap)).trans (hreg ▸ exec_push_of_fits a (.inl hwrap)), ?_⟩
  intro hdecode
  refine stepRunsTheDecodedInstruction _ i rest hr ?_ (.inl hwrap)
  simp only [Memory.read_write, add_assoc]
  exact hdecode

end Sys2Proof.Machine
